-- ==== Sys2Proof/Word.lean ====
section
/-! DEFINITION. The word types of the block and of its environment (spec rules R8, R50, R161, R162). -/

namespace Sys2Proof

/-- One cell of the read buffer, and the configuration byte: 8 bits (R8, R50). -/
abbrev Byte := BitVec 8

/-- The width in which the decoder holds `raw` and the sign-extended code (R8, R34). -/
abbrev Word32 := BitVec 32

/-- The argument of the timer capability: an unsigned 32-bit count of microseconds (R162). -/
abbrev Micros := BitVec 32

/-- The bus address of the device: "a caller-supplied 7-bit value" (R161). -/
abbrev BusAddress := BitVec 7

end Sys2Proof
end

