-- ==== Sys2Proof/Syntax.lean ====
section
/-! DEFINITION. The enumerated field types (R30 to R33), the RegisterConfig record (R24), the read buffer (R50),
the three units of the block (R81), and `Instr`: one constructor for each row of spec/opcode_table.json (R82). -/

namespace Sys2Proof

/-- R30: "one of 4 enumerators". On a 2-channel device the block still keeps four distinct values (R240). -/
inductive Channel where
  | ch1 | ch2 | ch3 | ch4
deriving DecidableEq, Repr

/-- R31: "one of" ×1, ×2, ×4, ×8. -/
inductive Gain where
  | g1 | g2 | g4 | g8
deriving DecidableEq, Repr

/-- R32: "one of" 12, 14, 16, 18 bits. -/
inductive Resolution where
  | r12 | r14 | r16 | r18
deriving DecidableEq, Repr

/-- R33: "Continuous | OneShot — a single bit." -/
inductive SampleMode where
  | oneShot | continuous
deriving DecidableEq, Repr

/-- R24: the record `RegisterConfig` ("Cfg"), the configuration register's five fields.
`ready = true` means ready; the wire bit is its complement (R25). -/
structure RegisterConfig where
  ready      : Bool
  channel    : Channel
  sampleMode : SampleMode
  resolution : Resolution
  gain       : Gain
deriving DecidableEq, Repr

/-- R50, R54: the operand of `SMP.DEC`, exactly 4 bytes, `b0` at index 0. -/
structure ReadBuffer where
  b0 : Byte
  b1 : Byte
  b2 : Byte
  b3 : Byte
deriving DecidableEq, Repr, Inhabited

/-- R81: the three independent units of the block; an operation is selected by which of them the environment
drives (R82). -/
inductive BlockUnit where
  | enc | dec | smp
deriving DecidableEq, Repr

/-- R82: the operation map. `SMP.DEC` is one operation split into five forms by its input pattern; the operands of
each form are the fields of that form's row, the config byte's fields already named by their enumerators. -/
inductive Instr where
  /-- Row `CFG.ENC` (R100): the five operand fields. -/
  | cfgEnc (ready : Bool) (channel : Channel) (sampleMode : SampleMode) (resolution : Resolution) (gain : Gain)
  /-- Row `CFG.DEC` (R101): the operand byte. -/
  | cfgDec (b : Byte)
  /-- Row `SMP.DEC.W3` (R130): 24 data bits and the config byte at index 3, whose resolution is `R18`. -/
  | smpDecW3 (data : BitVec 24) (ready : Bool) (channel : Channel) (sampleMode : SampleMode) (gain : Gain)
  /-- Row `SMP.DEC.W2.R12` (R131): 16 data bits, the config byte at index 2, and the byte at index 3. -/
  | smpDecW2R12 (data : BitVec 16) (ready : Bool) (channel : Channel) (sampleMode : SampleMode) (gain : Gain) (tail : Byte)
  /-- Row `SMP.DEC.W2.R14` (R131). -/
  | smpDecW2R14 (data : BitVec 16) (ready : Bool) (channel : Channel) (sampleMode : SampleMode) (gain : Gain) (tail : Byte)
  /-- Row `SMP.DEC.W2.R16` (R131). -/
  | smpDecW2R16 (data : BitVec 16) (ready : Bool) (channel : Channel) (sampleMode : SampleMode) (gain : Gain) (tail : Byte)
  /-- Row `SMP.DEC.W2.R18` (R135): the config byte is the third data byte as well. -/
  | smpDecW2R18 (data : BitVec 16) (ready : Bool) (channel : Channel) (sampleMode : SampleMode) (gain : Gain) (tail : Byte)
deriving DecidableEq, Repr

end Sys2Proof
end

