-- ==== Sys2Proof/Config.lean ====
section
/-! DEFINITION. What the spec leaves open for the environment: the open parameter `T_CONV_US` (R9, D17), the answers of
the bus capability (R161, R203) and the free values a run draws on when nothing outside has supplied an answer.
Every constant here is opaque: no proof can see a value of it. -/

namespace Sys2Proof

/-- R203: the `cause` of a `BusError` is "whatever the bus capability's error is"; the document does not describe it.
DESIGN CHOICE (log entry 11): a bare label, told apart from other causes and never computed with. -/
abbrev BusCause := Nat

/-- R161: the answer of the capability `write(address, bytes)`. -/
inductive WriteReply where
  | accepted
  | failed (cause : BusCause)
deriving DecidableEq, Repr, Inhabited

/-- R161: the answer of the capability `read(address, buffer)` with a 4-byte buffer. -/
inductive ReadReply where
  | filled (buffer : Byte × Byte × Byte × Byte)
  | failed (cause : BusCause)
deriving DecidableEq, Repr, Inhabited

/-- R9, R165, D17: `T_CONV_US[res]`, the nominal conversion time of a resolution in microseconds.
The numbers are not in the source, so the parameter is open. -/
opaque Config.nominalConversionTime : Resolution → Nat

/-- P10, R247: the answer of the device to a bus read that nothing outside has fixed, a free value of its own for
every draw. -/
opaque Config.freeReadReply : Nat → ReadReply

/-- N13, N21 (log entry 15): what the read buffer holds after a bus read that failed, a free value for every draw: the
source does not say whether a partial transfer writes any of it. -/
opaque Config.failedReadBuffer : Nat → ReadBuffer

/-- R161: the answer of the bus to a write that nothing outside has fixed, a free value for every draw. -/
opaque Config.freeWriteReply : Nat → WriteReply

/-- Log entry 9: whether a Continuous `configure` stores its pair before its bus write or only after it, which shows when
the write fails or the call is abandoned there. R168 does not say, so the answer is a free value for every draw. -/
opaque Config.configureStoresFirst : Nat → Bool

/-- N13, P10 (log entry 5): what an index of the read buffer holds while nothing has written it: a byte of which nothing
is known, for each index. -/
opaque Config.unwrittenByte : Nat → Byte

end Sys2Proof
end

