-- ==== Sys2Proof/WellFormed.lean ====
section
/-! DEFINITION. Which terms of `Instr` are instructions: in every layout-W2 form the byte at index 3 must not select
layout W3 (R78, R79: `xxxxSSxx` where `SS ≠ 11`). Every other operand has exactly the width of its field (R81). -/

namespace Sys2Proof

/-- R78: the field `SS` (bits 3:2) of the byte at index 3 is not `11`. -/
def tailWellFormed (tail : Byte) : Bool :=
  tail.extractLsb' 2 2 != 0b11#2

/-- R82: the instructions. A layout-W2 row requires "not row 3"; the other rows are selected by every operand. -/
def Instr.wellFormed : Instr → Bool
  | .cfgEnc _ _ _ _ _ => true
  | .cfgDec _ => true
  | .smpDecW3 _ _ _ _ _ => true
  | .smpDecW2R12 _ _ _ _ _ tail => tailWellFormed tail
  | .smpDecW2R14 _ _ _ _ _ tail => tailWellFormed tail
  | .smpDecW2R16 _ _ _ _ _ tail => tailWellFormed tail
  | .smpDecW2R18 _ _ _ _ _ tail => tailWellFormed tail

end Sys2Proof
end

