-- ==== Sys2Proof/Decode.lean ====
section
/-! DEFINITION. The formats CFG and RDBUF of 30_encoding.md bit by bit: the codes of the enumerations, the packing of
the configuration byte, the two layouts of the read buffer, the total decoder and the encoder. -/

namespace Sys2Proof

/-! ## The codes of the enumerations (R30 to R33, R71 to R74) -/

/-- R71 (R30): `00` = `CH1`, `01` = `CH2`, `10` = `CH3`, `11` = `CH4`. -/
def Channel.code : Channel → BitVec 2
  | .ch1 => 0b00#2
  | .ch2 => 0b01#2
  | .ch3 => 0b10#2
  | .ch4 => 0b11#2

/-- R71, read from the code. -/
def channelOfCode (c : BitVec 2) : Channel :=
  match c.toNat with
  | 0 => .ch1
  | 1 => .ch2
  | 2 => .ch3
  | _ => .ch4

/-- R72 (R33): `1` = `CONT`, `0` = `ONESHOT`. -/
def SampleMode.code : SampleMode → BitVec 1
  | .oneShot => 0b0#1
  | .continuous => 0b1#1

/-- R72, read from the code. -/
def sampleModeOfCode (c : BitVec 1) : SampleMode :=
  match c.toNat with
  | 0 => .oneShot
  | _ => .continuous

/-- R73 (R32): `00` = `R12`, `01` = `R14`, `10` = `R16`, `11` = `R18`. -/
def Resolution.code : Resolution → BitVec 2
  | .r12 => 0b00#2
  | .r14 => 0b01#2
  | .r16 => 0b10#2
  | .r18 => 0b11#2

/-- R73, read from the code. -/
def resolutionOfCode (c : BitVec 2) : Resolution :=
  match c.toNat with
  | 0 => .r12
  | 1 => .r14
  | 2 => .r16
  | _ => .r18

/-- R74 (R31): `00` = `G1`, `01` = `G2`, `10` = `G4`, `11` = `G8`. -/
def Gain.code : Gain → BitVec 2
  | .g1 => 0b00#2
  | .g2 => 0b01#2
  | .g4 => 0b10#2
  | .g8 => 0b11#2

/-- R74, read from the code. -/
def gainOfCode (c : BitVec 2) : Gain :=
  match c.toNat with
  | 0 => .g1
  | 1 => .g2
  | 2 => .g4
  | _ => .g8

/-! ## Format CFG (R70, R75): `rccmssgg` -/

/-- R75: bit 7 of the byte, "the complement of the record's `ready`". -/
def nrdyBit (ready : Bool) : BitVec 1 :=
  BitVec.ofBool (!ready)

/-- R70, R100: `nrdy : channel : sample_mode : resolution : gain`, bit 7 first. -/
def packConfig (cfg : RegisterConfig) : Byte :=
  nrdyBit cfg.ready ++ cfg.channel.code ++ cfg.sampleMode.code ++ cfg.resolution.code ++ cfg.gain.code

/-- R70, R101: the five fields, each extracted on its own; `ready` is "`(byte >> 7) == 0`". -/
def unpackConfig (b : Byte) : RegisterConfig where
  ready      := b >>> 7 == 0#8
  channel    := channelOfCode (b.extractLsb' 5 2)
  sampleMode := sampleModeOfCode (b.extractLsb' 4 1)
  resolution := resolutionOfCode (b.extractLsb' 2 2)
  gain       := gainOfCode (b.extractLsb' 0 2)

/-! ## Format RDBUF (R77 to R79) -/

/-- R79: "layout W3 if `buf[3] & 0x0C == 0x0C`". -/
def selectsW3 (b3 : Byte) : Bool :=
  b3 &&& 0x0C#8 == 0x0C#8

/-- R77: three data bytes, most significant first, and the config byte at index 3. -/
def layoutW3 (data : BitVec 24) (cfg : RegisterConfig) : ReadBuffer where
  b0 := data.extractLsb' 16 8
  b1 := data.extractLsb' 8 8
  b2 := data.extractLsb' 0 8
  b3 := packConfig cfg

/-- R78: two data bytes, most significant first, the config byte at index 2, and the byte at index 3. -/
def layoutW2 (data : BitVec 16) (cfg : RegisterConfig) (tail : Byte) : ReadBuffer where
  b0 := data.extractLsb' 8 8
  b1 := data.extractLsb' 0 8
  b2 := packConfig cfg
  b3 := tail

/-- R82: the form of `SMP.DEC` a buffer selects, in the table's priority order. Total: no buffer is illegal (R83). -/
def decodeBuffer (buf : ReadBuffer) : Instr :=
  if selectsW3 buf.b3 then
    let c := unpackConfig buf.b3
    .smpDecW3 (buf.b0 ++ buf.b1 ++ buf.b2) c.ready c.channel c.sampleMode c.gain
  else
    let c := unpackConfig buf.b2
    match c.resolution with
    | .r12 => .smpDecW2R12 (buf.b0 ++ buf.b1) c.ready c.channel c.sampleMode c.gain buf.b3
    | .r14 => .smpDecW2R14 (buf.b0 ++ buf.b1) c.ready c.channel c.sampleMode c.gain buf.b3
    | .r16 => .smpDecW2R16 (buf.b0 ++ buf.b1) c.ready c.channel c.sampleMode c.gain buf.b3
    | .r18 => .smpDecW2R18 (buf.b0 ++ buf.b1) c.ready c.channel c.sampleMode c.gain buf.b3

/-- The operands of `CFG.ENC` as one instruction. -/
def encInstr (cfg : RegisterConfig) : Instr :=
  .cfgEnc cfg.ready cfg.channel cfg.sampleMode cfg.resolution cfg.gain

/-! ## The decoder and the encoder -/

/-- Why bytes are no instruction: a unit is offered a word that is not as long as its port (R54, R81, D8). -/
inductive DecodeError where
  | wrongLength (u : BlockUnit) (n : Nat)
deriving DecidableEq, Repr

/-- R82: the operation that unit `u` performs on the bytes of its row of the table. The unit is the only selection
there is ("no opcode field"). A `CFG.ENC` row's pattern is the byte built from the operands, so it is read back into
them. -/
def decode (u : BlockUnit) (bytes : List Byte) : Except DecodeError Instr :=
  match u, bytes with
  | .enc, [b] => .ok (encInstr (unpackConfig b))
  | .dec, [b] => .ok (.cfgDec b)
  | .smp, [b0, b1, b2, b3] => .ok (decodeBuffer ⟨b0, b1, b2, b3⟩)
  | u, bs => .error (.wrongLength u bs.length)

/-- R81, R82: the unit whose inputs an operation drives. -/
def Instr.blockUnit : Instr → BlockUnit
  | .cfgEnc _ _ _ _ _ => .enc
  | .cfgDec _ => .dec
  | .smpDecW3 _ _ _ _ _ => .smp
  | .smpDecW2R12 _ _ _ _ _ _ => .smp
  | .smpDecW2R14 _ _ _ _ _ _ => .smp
  | .smpDecW2R16 _ _ _ _ _ _ => .smp
  | .smpDecW2R18 _ _ _ _ _ _ => .smp

/-- The four bytes of a buffer, index 0 first. -/
def ReadBuffer.bytes (buf : ReadBuffer) : List Byte :=
  [buf.b0, buf.b1, buf.b2, buf.b3]

/-- The bytes of an instruction's row, from the patterns of R70, R77 and R78. -/
def encode : Instr → List Byte
  | .cfgEnc r c m s g => [packConfig ⟨r, c, m, s, g⟩]
  | .cfgDec b => [b]
  | .smpDecW3 d r c m g => (layoutW3 d ⟨r, c, m, .r18, g⟩).bytes
  | .smpDecW2R12 d r c m g t => (layoutW2 d ⟨r, c, m, .r12, g⟩ t).bytes
  | .smpDecW2R14 d r c m g t => (layoutW2 d ⟨r, c, m, .r14, g⟩ t).bytes
  | .smpDecW2R16 d r c m g t => (layoutW2 d ⟨r, c, m, .r16, g⟩ t).bytes
  | .smpDecW2R18 d r c m g t => (layoutW2 d ⟨r, c, m, .r18, g⟩ t).bytes

/-! ## The table's words -/

/-- D12: the 32-bit word `W = buf[0] : buf[1] : buf[2] : buf[3]`, `buf[0]` in bits 31:24. -/
def bufferOfWord (w : Nat) : ReadBuffer :=
  let v := BitVec.ofNat 32 w
  ⟨v.extractLsb' 24 8, v.extractLsb' 16 8, v.extractLsb' 8 8, v.extractLsb' 0 8⟩

/-- The bytes of a word of `n` bytes, most significant byte first (D12). -/
def bytesOfWord : Nat → Nat → List Byte
  | 0, _ => []
  | n + 1, w => BitVec.ofNat 8 (w / 2 ^ (8 * n)) :: bytesOfWord n w

/-- How many bytes a word of so many bits is handed over as: the bytes it fills when it is shorter than the 32-bit port,
the bytes it needs when it is longer. So no word but one of 32 bits is handed over as the port's 4 bytes (R54, D8). -/
def handedLength (nbits : Nat) : Nat :=
  if nbits < 32 then nbits / 8 else (nbits + 7) / 8

/-- The instruction the decoder reads from a word of the table. An 8-bit word is an INPUT of the block only in row
`CFG.DEC`: in row `CFG.ENC` the same 8 bits are the output, and no bit tells the two rows apart (log entry 2). A
word of another length than a port's is no instruction (D8). -/
def decodeTableWord (nbits w : Nat) : Option Instr :=
  match nbits with
  | 8 => (decode .dec [BitVec.ofNat 8 w]).toOption
  | 32 => (decode .smp (bufferOfWord w).bytes).toOption
  | _ => none

end Sys2Proof
end

