-- ==== Sys2Proof/Machine/Ports.lean ====
section
/-! DEFINITION. The results the block's units give (R35, R37): the voltage, the two errors of `SMP.DEC`, and the sum of
its three cases. An output that is not valid is absent from the sum, never zero or stale (R206, D6). -/

namespace Sys2Proof.Machine

/-- R35, D4: a voltage as the integer `v_q9`, in units of 2^−9 mV; every result is such an integer exactly. -/
structure Voltage where
  q9 : Int
deriving DecidableEq, Repr

/-- R200: the two errors the block can report, each with its payload (R201: none; R202: the code and the bounds). -/
inductive SmpError where
  | notReady
  | illegalValue (value min max : Int)
deriving DecidableEq, Repr

/-- R37: the result of `SMP.DEC`: `Ok(voltage_mV)`, `NotReady`, or `IllegalValue` with its payload. -/
inductive SmpResult where
  | ok (v : Voltage)
  | raised (e : SmpError)
deriving DecidableEq, Repr

end Sys2Proof.Machine
end

