-- ==== Sys2Proof/Machine/Environment.lean ====
section
/-! DEFINITION. The data of the block's environment (R7, 42_host_protocols.md): what callers ask for, what a device
handle owns, what the bus and the timer are asked to do, and what a caller gets back. The block itself has none of
it (R20, R39). -/

namespace Sys2Proof.Machine

/-- R39: "either an absolute microsecond value or a signed offset applied to the resolution's nominal conversion
time". -/
inductive ConversionTime where
  | absolute (us : Micros)
  | offset (us : Int)
deriving DecidableEq, Repr

/-- R39: the user-facing Configuration. -/
structure Configuration where
  channel        : Channel
  resolution     : Resolution
  gain           : Gain
  conversionTime : ConversionTime
deriving DecidableEq, Repr

/-- A Configuration together with the `ready` its RegisterConfig is built with, which no rule gives (N9, P11, D16:
such a field is an argument). OneShot and MultiShot force it false in every written byte (R167, R170). -/
structure Setup where
  configuration : Configuration
  ready         : Bool
deriving DecidableEq, Repr

/-- R39: one "`RegisterConfig` + delay" pair of a mode. -/
structure Shot where
  cfg   : RegisterConfig
  delay : Micros
deriving DecidableEq, Repr

/-- What a mode protocol is constructed or reconfigured with (R164, R170). -/
inductive ModeSetup where
  | oneShot (setup : Setup)
  | continuous (setup : Setup)
  | multiShot (setups : List Setup)
deriving DecidableEq, Repr

/-- R39: the mode state a handle owns. ContinuousMode "additionally owns an `initialized` flag" (R168). -/
inductive ModeState where
  | oneShot (shot : Shot)
  | continuous (shot : Shot) (initialized : Bool)
  /-- At least one pair, by the invariant ("one or more", R39). -/
  | multiShot (shots : List Shot)
deriving DecidableEq, Repr

/-- R163: the device handle's address and active mode state; the bus and the timer it owns are answered from
`State.writeReplies` and `State.readReplies`. -/
structure Handle where
  address : BusAddress
  mode    : ModeState
deriving DecidableEq, Repr

/-- R82, R84: one evaluation of the block, selected by which unit's inputs are driven. -/
inductive Drive where
  /-- `CFG.ENC` on these five fields. -/
  | enc (cfg : RegisterConfig)
  /-- `CFG.DEC` on this byte. -/
  | dec (b : Byte)
  /-- `SMP.DEC` on the read buffer. -/
  | smp
deriving DecidableEq, Repr

/-- R85, R58: one operation of the bus, the timer, or a caller with a buffer of its own. -/
inductive Action where
  /-- The caller hands its own buffer to unit SMP (R58: "the environment may pass any buffer it likes"). -/
  | hand (bytes : List Byte)
  /-- `BUS.WR` of one byte. -/
  | busWrite (b : Byte)
  /-- `BUS.RD` of 4 bytes into the read buffer. -/
  | busRead
  /-- `DELAY` of this many microseconds. -/
  | delay (us : Micros)
deriving DecidableEq, Repr

/-- A mode protocol's own bookkeeping between those operations. -/
inductive Book where
  /-- R168: "then transition to Running". -/
  | markRunning
  /-- R170: put the decoded sample into the array, or abort the call. -/
  | collect
  /-- R166: give the decoded sample to whoever asked for it. -/
  | returnSample
  /-- R170: give the "fixed-size ordered array indexed by i" to whoever asked for it. -/
  | returnArray
  /-- R168: Continuous `configure` may store the pair before its bus write (log entry 9). -/
  | stageShot (shot : Shot)
  /-- R168: Continuous `configure`, its write done, stores the pair and ends. -/
  | storeShot (shot : Shot)
deriving DecidableEq, Repr

/-- Who gets the result of the call in progress: its caller, or the stream it is an item of (R171). -/
inductive Sink where
  | caller | stream
deriving DecidableEq, Repr

/-- A call on the device handle (R164, R171, R173). -/
inductive Call where
  /-- R164: the per-mode `new`, which makes the handle of the device at this address. -/
  | new (address : BusAddress) (setup : ModeSetup)
  /-- R167, R168, R170: `configure`. -/
  | configure (setup : ModeSetup)
  /-- R86: `MEASURE.ONESHOT`, `MEASURE.CONT` or `MEASURE.MULTI<N>`, by the handle's mode. -/
  | measure
  /-- R171: one pull of the streaming adapter, one measurement. -/
  | pull
  /-- R173: a `measure` or a pull that is abandoned at the suspension point that follows this many completed ones. -/
  | abandon (sink : Sink) (suspensions : Nat)
  /-- R172, R173: a `configure` abandoned in the same way. -/
  | abandonConfigure (setup : ModeSetup) (suspensions : Nat)
deriving DecidableEq, Repr

/-- One thing a call in progress still has to do. -/
inductive Micro where
  | drive (d : Drive)
  | act (a : Action)
  | book (b : Book)
deriving DecidableEq, Repr

/-- One thing the environment invokes: a single operation of a program (R84, R85), or a call (R86). -/
inductive Op where
  | drive (d : Drive)
  | act (a : Action)
  | call (c : Call)
deriving DecidableEq, Repr

/-- R200: the driver's three error kinds; two of them come from the block. -/
inductive DriverError where
  | busError (cause : BusCause)
  | sample (e : SmpError)
deriving DecidableEq, Repr

/-- What a call gives back: a voltage (OneShot, Continuous), the ordered array (MultiShot), an error, or the
completion of a `configure`. -/
inductive CallResult where
  | voltage (v : Voltage)
  | array (vs : List Voltage)
  | error (e : DriverError)
  | configured
deriving DecidableEq, Repr

/-- One result and where it went. -/
structure Delivery where
  sink   : Sink
  result : CallResult
deriving DecidableEq, Repr

/-- What the bus and the timer were asked to do (R161, R162): the record the scenarios call the bus trace. -/
inductive BusEvent where
  | write (address : BusAddress) (b : Byte)
  | read (address : BusAddress)
  | delay (us : Micros)
deriving DecidableEq, Repr

end Sys2Proof.Machine
end

