-- ==== Sys2Proof/Machine/State.lean ====
section
/-! DEFINITION. The machine's state. The block stores nothing (R20): its part of `State` is the three output ports of
R81 and the read buffer that is the operand of `SMP.DEC` (R50). The rest is the environment of 42_host_protocols.md. -/

namespace Sys2Proof.Machine

/-- R50: the one address space, the read buffer: pairs of an index 0 to 3 and a byte, indices strictly rising.
An index that is not listed has not been written: what it holds is a free value (log entry 5). -/
abbrev Memory := List Host.Cell

/-- Why the machine stops with a fault. No operation of the block does (R217): the one fault is a stuck state of a
protocol. -/
inductive Fault where
  /-- Raised by `step` when a protocol's bookkeeping asks for a decoded sample before any decode (log entry 25). A call's
  own sequence always decodes first (R166), so only a state outside the invariant raises it. Safe: the run stops. -/
  | noSample
deriving DecidableEq, Repr

/-- Why the machine refuses. Every one but `notModelled` is a request that the source's software cannot make or
whose effect it does not give; none is an instruction. All are safe: the run stops and nothing is claimed. -/
inductive Refusal where
  /-- Raised by an arm of `exec` that has no meaning yet. No arm does. -/
  | notModelled (mnemonic : String)
  /-- Raised by `step` when a caller hands `SMP.DEC` a buffer of another length than 4 (D8, P9). -/
  | bufferLength (n : Nat)
  /-- Raised by `step` when the bus or a mode protocol is asked for and no device handle owns them (R163). -/
  | noHandle
  /-- Raised by `step` when a second handle is made for the one device (R163, U11: "no sharing model is defined"). -/
  | handleExists
  /-- Raised by `step` when `configure` is given another mode's configuration (R164: the entry points are per mode). -/
  | modeMismatch
  /-- Raised by `step` when MultiShot `configure` is given another count than N, which is fixed at construction
  (R170). -/
  | shotCount (n : Nat)
  /-- Raised by `step` when a MultiShot handle is made with no pair: a mode state "owns one or more" of them (R39, log
  entry 28). -/
  | noShots
  /-- Raised by `step` when nominal time plus offset passes the 32-bit range, which the source does not describe
  (R165, U10). -/
  | delayOverflow
deriving DecidableEq, Repr

/-- All that the spec gives the machine, as plain data. -/
structure State where
  /-- Unit ENC's output `cfg_byte` (R81): absent until the unit has been driven (R41, D6). -/
  encOut : Option Byte
  /-- Unit DEC's five outputs (R81). -/
  decOut : Option RegisterConfig
  /-- Unit SMP's outputs `status`, `voltage`, `err_value`, `err_min`, `err_max` as the sum of R37 (R206). -/
  smpOut : Option SmpResult
  /-- The read buffer, the operand of `SMP.DEC` (R50, R38). -/
  buf : Memory
  /-- What the environment invokes next, in order (D3: the "program" of a test). -/
  program : List Op
  /-- What the call in progress still has to do (R166). -/
  task : List Micro
  /-- Where the result of the call in progress goes (R171, R174). -/
  sink : Sink
  /-- MultiShot's results so far (R170). -/
  collected : List Voltage
  /-- The device handle, once a caller has made one (R39, R163). -/
  handle : Option Handle
  /-- The writes, reads and delays asked of the bus and the timer, oldest first (R161, R162). -/
  trace : List BusEvent
  /-- The results given to callers and streams, oldest first (R171, R174). -/
  results : List Delivery
  /-- The bus's answers to the writes to come, fixed from outside (R161). -/
  writeReplies : List WriteReply
  /-- The bus's answers to the reads to come, fixed from outside: what the device sends (R161, P10). -/
  readReplies : List ReadReply
  /-- The model's own field: how many free values have been drawn. -/
  draws : Nat
deriving DecidableEq, Repr

/-- The state with nothing driven and nothing asked. The block has no reset (R41, R230); the environment has no handle
yet, no buffer contents and no program. -/
def State.reset : State where
  encOut := none
  decOut := none
  smpOut := none
  buf := []
  program := []
  task := []
  sink := .caller
  collected := []
  handle := none
  trace := []
  results := []
  writeReplies := []
  readReplies := []
  draws := 0

end Sys2Proof.Machine
end

