-- ==== Sys2Proof/Machine/Ops.lean ====
section
/-! DEFINITION. The shared operations: reading and filling the read buffer, `MemRead`, driving an output port, raising
an error, and the draws on the bus. -/

namespace Sys2Proof.Machine

/-! ## The read buffer as memory (R50 to R55) -/

/-- The byte that was written at an index, if one was. -/
def Memory.read (m : Memory) (a : Nat) : Option Byte :=
  match m with
  | [] => none
  | (k, v) :: rest => if k = a then some v else Memory.read rest a

/-- Write one byte, keeping the indices strictly rising. -/
def Memory.write (m : Memory) (a : Nat) (b : Byte) : Memory :=
  match m with
  | [] => [(a, b)]
  | (k, v) :: rest =>
    if a < k then (a, b) :: (k, v) :: rest
    else if k = a then (a, b) :: rest
    else (k, v) :: Memory.write rest a b

/-- Every index is at least `lo`, below 4, and below the next one. -/
def Memory.risingFrom (lo : Nat) (m : Memory) : Bool :=
  match m with
  | [] => true
  | (k, _) :: rest => decide (lo ≤ k) && decide (k < 4) && Memory.risingFrom (k + 1) rest

/-- The canonical form: strictly rising indices, each one of the address space's 0, 1, 2, 3 (R50). An unlisted index
reads as `none`, so no entry can equal what an unlisted index reads as. -/
def Memory.wf (m : Memory) : Bool :=
  Memory.risingFrom 0 m

/-- R53: a 4-byte read fills the buffer from index 0. -/
def Memory.fill (m : Memory) (buf : ReadBuffer) : Memory :=
  Memory.write (Memory.write (Memory.write (Memory.write m 0 buf.b0) 1 buf.b1) 2 buf.b2) 3 buf.b3

/-- What an index holds: the byte written there, or the free value of an index that nothing has written (log entry 5). -/
def Memory.byteAt (m : Memory) (a : Nat) : Byte :=
  (m.read a).getD (Config.unwrittenByte a)

/-- The whole buffer as the operand of `SMP.DEC` (D18: one snapshot). Total: there is always an operand (R232). -/
def Memory.snapshot (m : Memory) : ReadBuffer :=
  ⟨m.byteAt 0, m.byteAt 1, m.byteAt 2, m.byteAt 3⟩

/-- R53: big-endian concatenation, the first byte most significant. -/
def bigEndian (bytes : List Byte) : Nat :=
  bytes.foldl (fun acc b => acc * 256 + b.toNat) 0

/-- R12, R55: `MemRead(i, n)`, the bytes `buf[i] : … : buf[i+n−1]` as one unsigned value (for `i + n ≤ 4`). -/
def memRead (buf : ReadBuffer) (i n : Nat) : Nat :=
  bigEndian ((buf.bytes.drop i).take n)

/-! ## Driving the output ports (R20, R81, R206) -/

/-- The result of `CFG.ENC` appears at unit ENC's output, and nothing else changes (R20, R100). -/
def driveEnc (b : Byte) (s : State) : State :=
  { s with encOut := some b }

/-- The result of `CFG.DEC` appears at unit DEC's outputs, and nothing else changes (R20, R101). -/
def driveDec (cfg : RegisterConfig) (s : State) : State :=
  { s with decOut := some cfg }

/-- R12, R206: "`return v`: the operation ends with the success result `v`". -/
def returnVoltage (v : Voltage) (s : State) : State :=
  { s with smpOut := some (.ok v) }

/-- R12, R206, R207: "`raise <Error>(info)`", the block's whole exception entry: "the operation ends at once with the
named error result and the stated payload, produces no other output, and changes no state". Nothing is saved, no
mode changes, no vector is taken, and control returns to the caller as for a success; so there is no return
operation either. -/
def raise (e : SmpError) (s : State) : State :=
  { s with smpOut := some (.raised e) }

/-! ## The environment's answers -/

/-- The bus's answer to the next write: the next one fixed from outside, or a free value. -/
def drawWrite (s : State) : WriteReply × State :=
  match s.writeReplies with
  | r :: rest => (r, { s with writeReplies := rest })
  | [] => (Config.freeWriteReply s.draws, { s with draws := s.draws + 1 })

/-- The device's answer to the next read: the next one fixed from outside, or a free value (P10). -/
def drawRead (s : State) : ReadReply × State :=
  match s.readReplies with
  | r :: rest => (r, { s with readReplies := rest })
  | [] => (Config.freeReadReply s.draws, { s with draws := s.draws + 1 })

/-- R174: give a result to whoever the call in progress belongs to. -/
def deliver (r : CallResult) (s : State) : State :=
  { s with results := s.results ++ [⟨s.sink, r⟩] }

/-- R166, R170, R174: an error ends the call in progress: nothing more of it is attempted, no partial array is
returned, and the error goes to the immediate caller. -/
def failCall (e : DriverError) (s : State) : State :=
  deliver (.error e) { s with task := [], collected := [] }

end Sys2Proof.Machine
end

