-- ==== Sys2Proof/Machine/Operands.lean ====
section
/-! DEFINITION. The operand forms of `SMP.DEC`: the attribute tables of the resolution and the gain (R31, R32), and its
steps 1, 3, 4 and 6 as functions of the read buffer (R121, R123, R124, R126). -/

namespace Sys2Proof.Machine

/-! ## The Resolution attribute table (R32) -/

/-- R32: the bit width. -/
def bits : Resolution → Nat
  | .r12 => 12
  | .r14 => 14
  | .r16 => 16
  | .r18 => 18

/-- R32: the byte width of the sample. -/
def nbytes : Resolution → Nat
  | .r12 => 2
  | .r14 => 2
  | .r16 => 2
  | .r18 => 3

/-- R32, D7: the sign-bit mask, `1 << (bits − 1)`. -/
def signMask : Resolution → Word32
  | .r12 => 0x00000800#32
  | .r14 => 0x00002000#32
  | .r16 => 0x00008000#32
  | .r18 => 0x00020000#32

/-- R32, D7: the sign-extension mask, all bits from `bits` to 31. -/
def extMask : Resolution → Word32
  | .r12 => 0xFFFFF000#32
  | .r14 => 0xFFFFC000#32
  | .r16 => 0xFFFF0000#32
  | .r18 => 0xFFFC0000#32

/-- R32: the minimum signed code, itself reserved (R125). -/
def minCode : Resolution → Int
  | .r12 => -2048
  | .r14 => -8192
  | .r16 => -32768
  | .r18 => -131072

/-- R32: the maximum signed code, itself reserved (R125). -/
def maxCode : Resolution → Int
  | .r12 => 2047
  | .r14 => 8191
  | .r16 => 32767
  | .r18 => 131071

/-- R31: the exponent `g` of the gain, whose multiplier is `G = 2^g`. -/
def gainExp : Gain → Nat
  | .g1 => 0
  | .g2 => 1
  | .g4 => 2
  | .g8 => 3

/-- R31: the integer multiplier `G`. -/
def multiplier : Gain → Nat
  | .g1 => 1
  | .g2 => 2
  | .g4 => 4
  | .g8 => 8

/-! ## The steps of `SMP.DEC` that compute -/

/-- R121, step 1: the echoed config byte, `buf[3]` when the selector is `11`, `buf[2]` otherwise. -/
def configByte (buf : ReadBuffer) : Byte :=
  if selectsW3 buf.b3 then buf.b3 else buf.b2

/-- R123, step 3: `raw`, the big-endian concatenation of the resolution's byte width from index 0, zero-extended to
32 bits; no masking to `bits` (R137). -/
def rawCode (buf : ReadBuffer) (res : Resolution) : Word32 :=
  BitVec.ofNat 32 (memRead buf 0 (nbytes res))

/-- R124, step 4: "If the sign bit (resolution-specific) is set, OR the sign-extension mask into the value". -/
def signExtend (res : Resolution) (raw : Word32) : Word32 :=
  if raw &&& signMask res ≠ 0#32 then raw ||| extMask res else raw

/-- R124: `code <- signed_32(raw)` after the sign extension. -/
def sampleCode (buf : ReadBuffer) (res : Resolution) : Int :=
  (signExtend res (rawCode buf res)).toInt

/-- R126, step 6: the exact voltage, `v_q9 = code << (21 − bits − g)`. Nothing is rounded or truncated (D4, D14). -/
def scale (code : Int) (res : Resolution) (gain : Gain) : Voltage :=
  ⟨code * 2 ^ (21 - bits res - gainExp gain)⟩

/-- R35: the voltage in millivolts, `v_q9 / 512`. -/
def Voltage.mV (v : Voltage) : Rat :=
  (v.q9 : Rat) / 512

end Sys2Proof.Machine
end

