-- ==== Sys2Proof/Machine/Flags.lean ====
section
/-! DEFINITION. The two values a reader might call flags (R23), both outputs and neither stored: the readiness that
step 2 of `SMP.DEC` tests, and the result kind; the strict range test of step 5; and unit SMP's ports (R81). -/

namespace Sys2Proof.Machine

/-- R125, step 5: `min < code < max`, "strict". -/
def codeValid (res : Resolution) (code : Int) : Bool :=
  decide (minCode res < code) && decide (code < maxCode res)

/-- R202: the error of step 5, with the code and the bounds of the resolution. -/
def illegalCode (res : Resolution) (code : Int) : SmpError :=
  .illegalValue code (minCode res) (maxCode res)

/-- R204, D5: the numbers of the result kinds at a bit-level port. -/
def SmpResult.status : SmpResult → Nat
  | .ok _ => 0
  | .raised .notReady => 1
  | .raised (.illegalValue _ _ _) => 2

/-- R204, D5: the numbers of the driver's error kinds. -/
def DriverError.status : DriverError → Nat
  | .sample .notReady => 1
  | .sample (.illegalValue _ _ _) => 2
  | .busError _ => 3

/-- R81: the port `voltage`, "valid only when `status = Ok`". -/
def SmpResult.voltage? : SmpResult → Option Voltage
  | .ok v => some v
  | .raised _ => none

/-- R81: the ports `err_value`, `err_min`, `err_max`, "valid only when `status = IllegalValue`". -/
def SmpResult.payload? : SmpResult → Option (Int × Int × Int)
  | .ok _ => none
  | .raised .notReady => none
  | .raised (.illegalValue value mn mx) => some (value, mn, mx)

end Sys2Proof.Machine
end

