-- ==== Sys2Proof/Machine/RegisterCodec.lean ====
section
/-! DEFINITION. The first instruction family, the Register Codec: `CFG.ENC` (R100) and `CFG.DEC` (R101). -/

namespace Sys2Proof.Machine

/-- R100: the byte `nrdy : channel : sample_mode : resolution : gain` at unit ENC's output. "Pure, total, no failure
mode." -/
def execCfgEnc (ready : Bool) (channel : Channel) (sampleMode : SampleMode) (resolution : Resolution) (gain : Gain)
    (s : State) : Host.Outcome State Fault Refusal :=
  .next (driveEnc (packConfig ⟨ready, channel, sampleMode, resolution, gain⟩) s)

/-- R101: the five fields of the byte at unit DEC's outputs. "Pure, total over all 256 byte values"; a byte that is
not ready is reported, never raised. -/
def execCfgDec (b : Byte) (s : State) : Host.Outcome State Fault Refusal :=
  .next (driveDec (unpackConfig b) s)

end Sys2Proof.Machine
end

