-- ==== Sys2Proof/Machine/SampleDecoder.lean ====
section
/-! DEFINITION. The second instruction family, the Sample Decoder: `SMP.DEC` as a whole (R120), and its five forms. -/

namespace Sys2Proof.Machine

/-- R120: the six steps of `SMP.DEC` in their order; an error ends the operation at the step that raises it, so
`NotReady` (step 2) wins over `IllegalValue` (step 5) (R205). -/
def smpDec (buf : ReadBuffer) : SmpResult :=
  let cfg := unpackConfig (configByte buf)
  if cfg.ready = false then .raised .notReady
  else
    let res := cfg.resolution
    let code := sampleCode buf res
    if codeValid res code then .ok (scale code res cfg.gain)
    else .raised (illegalCode res code)

/-- R20, R206: one evaluation of unit SMP on a buffer; the result appears at its outputs and nothing else changes. -/
def evalSmpDec (buf : ReadBuffer) (s : State) : State :=
  match smpDec buf with
  | .ok v => returnVoltage v s
  | .raised e => raise e s

/-- R130: form `W3`, three data bytes and the config byte of an `R18` sample at index 3. -/
def execSmpDecW3 (data : BitVec 24) (ready : Bool) (channel : Channel) (sampleMode : SampleMode) (gain : Gain)
    (s : State) : Host.Outcome State Fault Refusal :=
  .next (evalSmpDec (layoutW3 data ⟨ready, channel, sampleMode, .r18, gain⟩) s)

/-- R131: form `W2.R12`. -/
def execSmpDecW2R12 (data : BitVec 16) (ready : Bool) (channel : Channel) (sampleMode : SampleMode) (gain : Gain)
    (tail : Byte) (s : State) : Host.Outcome State Fault Refusal :=
  .next (evalSmpDec (layoutW2 data ⟨ready, channel, sampleMode, .r12, gain⟩ tail) s)

/-- R131: form `W2.R14`. -/
def execSmpDecW2R14 (data : BitVec 16) (ready : Bool) (channel : Channel) (sampleMode : SampleMode) (gain : Gain)
    (tail : Byte) (s : State) : Host.Outcome State Fault Refusal :=
  .next (evalSmpDec (layoutW2 data ⟨ready, channel, sampleMode, .r14, gain⟩ tail) s)

/-- R131: form `W2.R16`. -/
def execSmpDecW2R16 (data : BitVec 16) (ready : Bool) (channel : Channel) (sampleMode : SampleMode) (gain : Gain)
    (tail : Byte) (s : State) : Host.Outcome State Fault Refusal :=
  .next (evalSmpDec (layoutW2 data ⟨ready, channel, sampleMode, .r16, gain⟩ tail) s)

/-- R135: form `W2.R18`, in which the config byte at index 2 is read again as the third data byte (D9). -/
def execSmpDecW2R18 (data : BitVec 16) (ready : Bool) (channel : Channel) (sampleMode : SampleMode) (gain : Gain)
    (tail : Byte) (s : State) : Host.Outcome State Fault Refusal :=
  .next (evalSmpDec (layoutW2 data ⟨ready, channel, sampleMode, .r18, gain⟩ tail) s)

end Sys2Proof.Machine
end

