-- ==== Sys2Proof/Machine/Dispatch.lean ====
section
/-! DEFINITION. One arm for each constructor of `Instr`, each a direct call of its meaning. -/

namespace Sys2Proof.Machine

def exec (i : Instr) (s : State) : Host.Outcome State Fault Refusal :=
  match i with
  | .cfgEnc r c m p g => Sys2Proof.Machine.execCfgEnc r c m p g s
  | .cfgDec b => Sys2Proof.Machine.execCfgDec b s
  | .smpDecW3 d r c m g => Sys2Proof.Machine.execSmpDecW3 d r c m g s
  | .smpDecW2R12 d r c m g t => Sys2Proof.Machine.execSmpDecW2R12 d r c m g t s
  | .smpDecW2R14 d r c m g t => Sys2Proof.Machine.execSmpDecW2R14 d r c m g t s
  | .smpDecW2R16 d r c m g t => Sys2Proof.Machine.execSmpDecW2R16 d r c m g t s
  | .smpDecW2R18 d r c m g t => Sys2Proof.Machine.execSmpDecW2R18 d r c m g t s

end Sys2Proof.Machine
end

