-- ==== Sys2Proof/Machine/Protocols.lean ====
section
/-! DEFINITION. The environment around the block (42_host_protocols.md): Configuration to RegisterConfig and delay, the
bus and the timer, the three mode protocols, the streaming adapter, cancellation. Every decode and encode in it is a
step of the block itself (R166). -/

namespace Sys2Proof.Machine

/-! ## From the caller's Configuration to a stored pair (R164, R165, R231) -/

/-- R231: "`channel` defaults to the first channel, `gain` to ×1, `resolution` to 12 bits"; the default
`conversion_time` is not given and is an argument (N10, D16). -/
def defaultConfiguration (t : ConversionTime) : Configuration where
  channel        := .ch1
  resolution     := .r12
  gain           := .g1
  conversionTime := t

/-- R165: `delay = absolute`, or `max(0, nominal(resolution) + offset)`. No value past the 32-bit range (U10). -/
def delayOf (c : Configuration) : Option Micros :=
  match c.conversionTime with
  | .absolute us => some us
  | .offset d =>
    let t := ((Config.nominalConversionTime c.resolution : Int) + d).toNat
    if t < 2 ^ 32 then some (BitVec.ofNat 32 t) else none

/-- R164: the RegisterConfig "takes `channel`, `resolution` and `gain` from the Configuration", `sample_mode` from the
mode protocol, and `ready` from the argument. -/
def registerConfigOf (mode : SampleMode) (st : Setup) : RegisterConfig where
  ready      := st.ready
  channel    := st.configuration.channel
  sampleMode := mode
  resolution := st.configuration.resolution
  gain       := st.configuration.gain

/-- R164: "converted into a `RegisterConfig` plus a delay value". -/
def shotOf (mode : SampleMode) (st : Setup) : Option Shot :=
  match delayOf st.configuration with
  | some d => some ⟨registerConfigOf mode st, d⟩
  | none => none

/-- R170: one pair for each sub-conversion, in order. -/
def shotsOf : List Setup → Option (List Shot)
  | [] => some []
  | st :: rest =>
    match shotOf .oneShot st, shotsOf rest with
    | some p, some ps => some (p :: ps)
    | _, _ => none

/-- R164: OneShot and MultiShot use `ONESHOT`, Continuous uses `CONT`; R168: Continuous starts Uninitialized. -/
def modeOf : ModeSetup → Option ModeState
  | .oneShot st =>
    match shotOf .oneShot st with
    | some p => some (.oneShot p)
    | none => none
  | .continuous st =>
    match shotOf .continuous st with
    | some p => some (.continuous p false)
    | none => none
  | .multiShot sts =>
    match shotsOf sts with
    | some ps => some (.multiShot ps)
    | none => none

/-! ## The measurement protocols as sequences of single operations (R86, R166) -/

/-- R167, R170: the written configuration "with `ready` forced false to request a fresh conversion". -/
def requestConfig (cfg : RegisterConfig) : RegisterConfig :=
  { cfg with ready := false }

/-- R166: "`write(config_byte)`, `await delay(microseconds)`": encode the record, write the byte, wait. -/
def startSequence (cfg : RegisterConfig) (delay : Micros) : List Micro :=
  [.drive (.enc cfg), .act (.busWrite (packConfig cfg)), .act (.delay delay)]

/-- R166: "`read(4 bytes)`, `decode`". -/
def sampleSequence : List Micro :=
  [.act .busRead, .drive .smp]

/-- R86: `MEASURE.ONESHOT`'s four operations, for one stored pair. -/
def attempt (p : Shot) : List Micro :=
  startSequence (requestConfig p.cfg) p.delay ++ sampleSequence

/-- R170: the sub-conversions "in strict order", each collected into the array. -/
def multiSequence : List Shot → List Micro
  | [] => [.book .returnArray]
  | p :: ps => attempt p ++ .book .collect :: multiSequence ps

/-- R167, R168, R170: what one `measure` call does, by the mode and ContinuousMode's flag. -/
def measureSequence : ModeState → List Micro
  | .oneShot p => attempt p ++ [.book .returnSample]
  | .continuous _ true => sampleSequence ++ [.book .returnSample]
  | .continuous p false => startSequence p.cfg p.delay ++ .book .markRunning :: (sampleSequence ++ [.book .returnSample])
  | .multiShot ps => multiSequence ps

/-- R168, R172: Continuous `configure`: encode the record, write it, store the pair. The pair may be stored before the
write or after it (log entry 9). -/
def configureSequence (p : Shot) : List Micro :=
  [.drive (.enc p.cfg), .book (.stageShot p), .act (.busWrite (packConfig p.cfg)), .book (.storeShot p)]

/-- R172: the suspension points, "every bus write, bus read, and timed delay". -/
def isSuspension : Micro → Bool
  | .act (.busWrite _) => true
  | .act .busRead => true
  | .act (.delay _) => true
  | _ => false

/-- R172, R173: what is done of a call that is abandoned once `k` of its suspension points have completed: all of it up
to the next suspension point, the only place where it can be abandoned. -/
def abandonAfter (k : Nat) (ms : List Micro) : List Micro :=
  match ms with
  | [] => []
  | m :: rest =>
    if isSuspension m then
      match k with
      | 0 => []
      | k' + 1 => m :: abandonAfter k' rest
    else m :: abandonAfter k rest

/-! ## The bus, the timer and the buffer (R161, R162) -/

/-- R161: `write(address, bytes)` with one byte; a failure ends the call with `BusError` (R166, R174). -/
def runBusWrite (b : Byte) (s : State) : Host.Outcome State Fault Refusal :=
  match s.handle with
  | none => .refused .noHandle
  | some h =>
    match drawWrite { s with trace := s.trace ++ [.write h.address b] } with
    | (.accepted, s') => .next s'
    | (.failed c, s') => .next (failCall (.busError c) s')

/-- R161, R53: `read(address, buffer)` with a 4-byte buffer, filled from index 0. What a failed read leaves in the buffer
is free (log entry 15). -/
def runBusRead (s : State) : Host.Outcome State Fault Refusal :=
  match s.handle with
  | none => .refused .noHandle
  | some h =>
    match drawRead { s with trace := s.trace ++ [.read h.address] } with
    | (.filled (b0, b1, b2, b3), s') => .next { s' with buf := s'.buf.fill ⟨b0, b1, b2, b3⟩ }
    | (.failed c, s') =>
      .next (failCall (.busError c)
        { s' with buf := s'.buf.fill (Config.failedReadBuffer s'.draws), draws := s'.draws + 1 })

/-- R162: `delay_microseconds`, "non-fallible". DESIGN CHOICE (log entry 7): it needs no handle. R163 lets the handle own
the timer and does not say what a delay asked for before there is one does. -/
def runDelay (us : Micros) (s : State) : Host.Outcome State Fault Refusal :=
  .next { s with trace := s.trace ++ [.delay us] }

/-- D8: a caller's own buffer becomes the operand when it has 4 bytes; "a caller with another length is refused at the
model's boundary". -/
def runHand (bytes : List Byte) (s : State) : Host.Outcome State Fault Refusal :=
  match bytes with
  | [b0, b1, b2, b3] => .next { s with buf := s.buf.fill ⟨b0, b1, b2, b3⟩ }
  | bs => .refused (.bufferLength bs.length)

/-! ## The protocols' own bookkeeping -/

/-- R168: the flag `initialized` is set once the start-conversion byte is written and the delay has passed. -/
def setRunning : ModeState → ModeState
  | .continuous p _ => .continuous p true
  | m => m

/-- R168: the transition of the handle's mode. -/
def runMarkRunning (s : State) : Host.Outcome State Fault Refusal :=
  match s.handle with
  | none => .refused .noHandle
  | some h => .next { s with handle := some { h with mode := setRunning h.mode } }

/-- R170: "collecting results into a fixed-size ordered array indexed by i. A single failure aborts the entire
call". -/
def runCollect (s : State) : Host.Outcome State Fault Refusal :=
  match s.smpOut with
  | none => .fault .noSample
  | some (.ok v) => .next { s with collected := s.collected ++ [v] }
  | some (.raised e) => .next (failCall (.sample e) s)

/-- R207: the block's result goes to the immediate caller, an error as it stands. -/
def runReturnSample (s : State) : Host.Outcome State Fault Refusal :=
  match s.smpOut with
  | none => .fault .noSample
  | some (.ok v) => .next (deliver (.voltage v) s)
  | some (.raised e) => .next (failCall (.sample e) s)

/-- R170: the complete array goes to the caller. -/
def runReturnArray (s : State) : Host.Outcome State Fault Refusal :=
  .next { deliver (.array s.collected) s with collected := [] }

/-- R168: a Continuous mode with another stored pair and the same state, Uninitialized or Running. -/
def withShot (f : Shot → Shot) : ModeState → ModeState
  | .continuous old init => .continuous (f old) init
  | m => m

/-- Log entry 9: before the write of Continuous `configure`, the pair is stored or not. -/
def runStageShot (p : Shot) (s : State) : Host.Outcome State Fault Refusal :=
  match s.handle with
  | none => .refused .noHandle
  | some h =>
    .next { s with
      handle := some { h with mode := withShot (fun old => if Config.configureStoresFirst s.draws then p else old) h.mode }
      draws := s.draws + 1 }

/-- R168: after the write the pair is stored, and `configure` is done. -/
def runStoreShot (p : Shot) (s : State) : Host.Outcome State Fault Refusal :=
  match s.handle with
  | none => .refused .noHandle
  | some h => .next (deliver .configured { s with handle := some { h with mode := withShot (fun _ => p) h.mode } })

/-- One operation of the bus, the timer or a caller's buffer (R85). -/
def runAction (a : Action) (s : State) : Host.Outcome State Fault Refusal :=
  match a with
  | .hand bytes => runHand bytes s
  | .busWrite b => runBusWrite b s
  | .busRead => runBusRead s
  | .delay us => runDelay us s

/-- One piece of a protocol's bookkeeping. -/
def runBook (b : Book) (s : State) : Host.Outcome State Fault Refusal :=
  match b with
  | .markRunning => runMarkRunning s
  | .collect => runCollect s
  | .returnSample => runReturnSample s
  | .returnArray => runReturnArray s
  | .stageShot p => runStageShot p s
  | .storeShot p => runStoreShot p s

/-! ## The calls on the device handle -/

/-- R163, R164: `new`. One handle for the one device, whose mode state "owns one or more" pairs (R39). -/
def runNew (address : BusAddress) (setup : ModeSetup) (s : State) : Host.Outcome State Fault Refusal :=
  match s.handle, setup with
  | some _, _ => .refused .handleExists
  | none, .multiShot [] => .refused .noShots
  | none, setup =>
    match modeOf setup with
    | none => .refused .delayOverflow
    | some m => .next { s with handle := some ⟨address, m⟩ }

/-- R167, R168, R170: `configure`, cut to what `cut` leaves of it. OneShot and MultiShot replace what is stored, with no
suspension point at which they could be cut; Continuous begins its sequence. -/
def runConfigure (cut : List Micro → List Micro) (setup : ModeSetup) (s : State) : Host.Outcome State Fault Refusal :=
  match s.handle with
  | none => .refused .noHandle
  | some h =>
    match h.mode, setup with
    | .oneShot _, .oneShot st =>
      match shotOf .oneShot st with
      | none => .refused .delayOverflow
      | some p => .next (deliver .configured { s with handle := some { h with mode := .oneShot p } })
    | .continuous _ _, .continuous st =>
      match shotOf .continuous st with
      | none => .refused .delayOverflow
      | some p => .next { s with task := cut (configureSequence p) }
    | .multiShot ps, .multiShot sts =>
      if sts.length = ps.length then
        match shotsOf sts with
        | none => .refused .delayOverflow
        | some qs => .next (deliver .configured { s with handle := some { h with mode := .multiShot qs } })
      else .refused (.shotCount sts.length)
    | _, _ => .refused .modeMismatch

/-- R86, R171: begin a measurement, its result going to `sink`, cut to what `cut` leaves of it. -/
def beginMeasure (sink : Sink) (cut : List Micro → List Micro) (s : State) : Host.Outcome State Fault Refusal :=
  match s.handle with
  | none => .refused .noHandle
  | some h => .next { s with task := cut (measureSequence h.mode), sink := sink, collected := [] }

/-- One call on the device handle. -/
def runCall (c : Call) (s : State) : Host.Outcome State Fault Refusal :=
  match c with
  | .new address setup => runNew address setup s
  | .configure setup => runConfigure id setup s
  | .measure => beginMeasure .caller id s
  | .pull => beginMeasure .stream id s
  | .abandon sink k => beginMeasure sink (abandonAfter k) s
  | .abandonConfigure setup k => runConfigure (abandonAfter k) setup s

end Sys2Proof.Machine
end

