-- ==== Sys2Proof/Machine/Fetch.lean ====
section
/-! DEFINITION. What the next step does. The block fetches no instructions and has no program counter (R22, D3): an
operation is selected by the unit whose inputs the environment drives (R82), and the environment's next request
says which. -/

namespace Sys2Proof.Machine

/-- What stands next: an operation of the block with its operands, an operation of the environment, a piece of a
protocol's bookkeeping, a call on the handle, or nothing. -/
inductive Fetched where
  | instr (i : Instr)
  | act (a : Action)
  | book (b : Book)
  | call (c : Call)
  | idle
deriving DecidableEq, Repr

/-- R82: the instruction a drive selects. Unit SMP's operand is the whole read buffer, whose pattern selects the
form. -/
def fetchDrive (d : Drive) (buf : Memory) : Fetched :=
  match d with
  | .enc cfg => .instr (encInstr cfg)
  | .dec b => .instr (.cfgDec b)
  | .smp => .instr (decodeBuffer buf.snapshot)

/-- The head of the call in progress, or else the head of the program. -/
def fetch (s : State) : Fetched :=
  match s.task, s.program with
  | .drive d :: _, _ => fetchDrive d s.buf
  | .act a :: _, _ => .act a
  | .book b :: _, _ => .book b
  | [], .drive d :: _ => fetchDrive d s.buf
  | [], .act a :: _ => .act a
  | [], .call c :: _ => .call c
  | [], [] => .idle

/-- The request that `fetch` read is taken. A line of the program is a caller's. -/
def advance (s : State) : State :=
  match s.task, s.program with
  | _ :: rest, _ => { s with task := rest }
  | [], _ :: rest => { s with program := rest, sink := .caller }
  | [], [] => s

end Sys2Proof.Machine
end

