-- ==== Sys2Proof/Machine/Step.lean ====
section
/-! DEFINITION. One step of the machine: the next request of the environment, run to its end (R7: every operation of
the block is "evaluated in one atomic step"). -/

namespace Sys2Proof.Machine

/-- One step. An operation of the block is `exec` of the decoded instruction; when nothing is asked, nothing changes. -/
def step (s : State) : Host.Outcome State Fault Refusal :=
  match fetch s with
  | .instr i => exec i (advance s)
  | .act a => runAction a (advance s)
  | .book b => runBook b (advance s)
  | .call c => runCall c (advance s)
  | .idle => .next s

/-- `s` with the instruction of a table word put where `step` takes its next one: an 8-bit word drives unit DEC, a
32-bit word fills the read buffer (`buf[0]` in bits 31:24, D12) and drives unit SMP, and a word of any other length
is handed to unit SMP as a buffer of another length than 4 (which is refused, R54, D8). -/
def State.withFetchWord (s : State) (nbits w : Nat) : State :=
  match nbits with
  | 8 => { s with task := .drive (.dec (BitVec.ofNat 8 w)) :: s.task }
  | 32 => { s with buf := s.buf.fill (bufferOfWord w), task := .drive .smp :: s.task }
  | n => { s with task := .act (.hand (bytesOfWord (handedLength n) w)) :: s.task }

end Sys2Proof.Machine
end

