-- ==== Sys2Proof/Safety.lean ====
section
/-! DEFINITION. The terms claims are made in: the spec's closed forms of `SMP.DEC` (R124, R130, R131), what counts as a
safe run, and the invariant of the machine: what every value it holds or has given out must satisfy, whatever the
caller, the bus and the device do. -/

namespace Sys2Proof.Machine

/-- R124 "in arithmetic terms": if bit `bits − 1` of `raw` is 0, `raw`; if it is 1, `raw[bits−2:0] − 2^(bits−1)`. -/
def arithCode (bits raw : Nat) : Int :=
  if raw.testBit (bits - 1) then (raw % 2 ^ (bits - 1) : Nat) - 2 ^ (bits - 1) else raw

/-- R130, R131: the result of `SMP.DEC` in closed form, from the codes `s` and `g` of the resolution and the gain, the
raw value and the readiness; R130 is the case `s = 3`. -/
def closedForm (s g raw : Nat) (ready : Bool) : SmpResult :=
  let bits := 12 + 2 * s
  let code := arithCode bits raw
  if ready = false then .raised .notReady
  else if code ≤ -(2 ^ (bits - 1)) ∨ code ≥ 2 ^ (bits - 1) - 1 then
    .raised (.illegalValue code (-(2 ^ (bits - 1))) (2 ^ (bits - 1) - 1))
  else .ok ⟨code * 2 ^ (9 - 2 * s - g)⟩

/-- A run of `k` steps that neither faults nor refuses. -/
def runsSafely (k : Nat) (s : State) : Prop :=
  ∃ t, Host.Core.run Sys2Proof.core k s = .next t

/-- R35: `|v_q9| < 2^20`. -/
def Voltage.inRange (v : Voltage) : Prop :=
  -(2 ^ 20) < v.q9 ∧ v.q9 < 2 ^ 20

/-- R202, R127: the payload's bounds are those of one resolution, the value is not strictly between them, and it lies in
the range of codes the decoder can reach. -/
def SmpError.legal : SmpError → Prop
  | .notReady => True
  | .illegalValue value mn mx =>
    (∃ res, mn = minCode res ∧ mx = maxCode res) ∧ (value ≤ mn ∨ mx ≤ value) ∧
      -131072 ≤ value ∧ value ≤ 16646143

/-- A result that `SMP.DEC` can give. -/
def SmpResult.legal : SmpResult → Prop
  | .ok v => v.inRange
  | .raised e => e.legal

/-- A result that a caller or a stream can get. -/
def CallResult.legal : CallResult → Prop
  | .voltage v => v.inRange
  | .array vs => ∀ v ∈ vs, v.inRange
  | .error (.sample e) => e.legal
  | .error (.busError _) => True
  | .configured => True

/-- R164: OneShot and MultiShot keep one-shot configurations, Continuous a continuous one. R39: a mode state owns one or
more pairs. -/
def ModeState.legal : ModeState → Prop
  | .oneShot p => p.cfg.sampleMode = .oneShot
  | .continuous p _ => p.cfg.sampleMode = .continuous
  | .multiShot ps => ps ≠ [] ∧ ∀ p ∈ ps, p.cfg.sampleMode = .oneShot

/-- R166: what is still to be done decodes a sample before it asks for one. -/
def decodesFirst : List Micro → Bool
  | [] => true
  | .drive .smp :: _ => true
  | .book .collect :: _ => false
  | .book .returnSample :: _ => false
  | _ :: rest => decodesFirst rest

/-- The invariant of the machine. -/
structure State.Inv (s : State) : Prop where
  /-- R50: the read buffer is in its canonical form, with no index past 3. -/
  bufCanonical : s.buf.wf = true
  /-- R54: the buffer is never partly filled. -/
  bufWhole : s.buf = [] ∨ s.buf.length = 4
  /-- R35, R202: what stands at unit SMP's output is a result the decoder can give. -/
  smpLegal : ∀ r, s.smpOut = some r → r.legal
  /-- R170: so is every sample of an array in the making. -/
  collectedInRange : ∀ v ∈ s.collected, v.inRange
  /-- R207: and every result that was ever given out. -/
  resultsLegal : ∀ d ∈ s.results, d.result.legal
  /-- R164, R39: the handle's stored configurations have their mode's `sample_mode` bit, and there is at least one. -/
  modeLegal : ∀ h, s.handle = some h → h.mode.legal
  /-- R164: so has a Continuous configuration on its way into the handle. -/
  taskLegal : ∀ p, (Micro.book (.stageShot p) ∈ s.task ∨ Micro.book (.storeShot p) ∈ s.task) →
    p.cfg.sampleMode = .continuous
  /-- R166: a protocol that asks for a sample finds one. -/
  sampleThere : s.smpOut.isSome = true ∨ decodesFirst s.task = true

/-! ## Terms for statements about one step -/

/-- The request of a single line of a program, which the call in progress could hold as well. -/
def Op.micro? : Op → Option Micro
  | .drive d => some (.drive d)
  | .act a => some (.act a)
  | .call _ => none

/-- `m` is what `s` is asked to do next, in the call in progress or as a line of the program, and `s'` is `s` with the
request taken. -/
def State.takes (s : State) (m : Micro) (s' : State) : Prop :=
  (∃ rest, s.task = m :: rest ∧ s' = { s with task := rest }) ∨
  (∃ o rest, s.task = [] ∧ s.program = o :: rest ∧ o.micro? = some m ∧ s' = { s with program := rest, sink := .caller })

/-- The bus answers the next write with `r`, an answer fixed from outside or a free value, and `s'` is left. -/
def State.answersWrite (s : State) (r : WriteReply) (s' : State) : Prop :=
  (∃ ws, s.writeReplies = r :: ws ∧ s' = { s with writeReplies := ws }) ∨
  (s.writeReplies = [] ∧ Config.freeWriteReply s.draws = r ∧ s' = { s with draws := s.draws + 1 })

/-- The bus answers the next read with `r`. -/
def State.answersRead (s : State) (r : ReadReply) (s' : State) : Prop :=
  (∃ rs, s.readReplies = r :: rs ∧ s' = { s with readReplies := rs }) ∨
  (s.readReplies = [] ∧ Config.freeReadReply s.draws = r ∧ s' = { s with draws := s.draws + 1 })

/-- R164: a configuration for the mode the handle is in. -/
def ModeState.sameMode : ModeState → ModeSetup → Bool
  | .oneShot _, .oneShot _ => true
  | .continuous _ _, .continuous _ => true
  | .multiShot _, .multiShot _ => true
  | _, _ => false

/-- R170: and, for MultiShot, as many as the handle holds. -/
def ModeState.sameCount : ModeState → ModeSetup → Bool
  | .multiShot ps, .multiShot sts => sts.length == ps.length
  | _, _ => true

/-- U10: one of the delays has no value. -/
def ModeSetup.overflows : ModeSetup → Prop
  | .oneShot st => delayOf st.configuration = none
  | .continuous st => delayOf st.configuration = none
  | .multiShot sts => ∃ st ∈ sts, delayOf st.configuration = none

end Sys2Proof.Machine
end

