-- ==== Sys2Proof/Certificates/Slice0/Obligations.lean ====
section
/-! DEFINITION. The statements about the machine, for the provers. Each docstring names the rule it formalises; a
statement that rests on a choice of the model says so and names the log entry. -/

open Sys2Proof Sys2Proof.Machine

/-! ## The formats and the decoder -/

/-- R72, R73, R74: the codes of the sample mode, the resolution and the gain, in bits 4, 3:2 and 1:0 of the byte, and
that the codes read back. -/
def Obligations.FieldCodes : Prop :=
  (SampleMode.code .continuous = 1#1 ∧ SampleMode.code .oneShot = 0#1) ∧
  (Resolution.code .r12 = 0b00#2 ∧ Resolution.code .r14 = 0b01#2 ∧ Resolution.code .r16 = 0b10#2 ∧
    Resolution.code .r18 = 0b11#2) ∧
  (Gain.code .g1 = 0b00#2 ∧ Gain.code .g2 = 0b01#2 ∧ Gain.code .g4 = 0b10#2 ∧ Gain.code .g8 = 0b11#2) ∧
  (multiplier .g1 = 1 ∧ multiplier .g2 = 2 ∧ multiplier .g4 = 4 ∧ multiplier .g8 = 8) ∧
  (∀ m, sampleModeOfCode (SampleMode.code m) = m) ∧ (∀ r, resolutionOfCode (Resolution.code r) = r) ∧
  (∀ g, gainOfCode (Gain.code g) = g) ∧
  (∀ cfg : RegisterConfig, (packConfig cfg).extractLsb' 4 1 = SampleMode.code cfg.sampleMode ∧
    (packConfig cfg).extractLsb' 2 2 = Resolution.code cfg.resolution ∧
    (packConfig cfg).extractLsb' 0 2 = Gain.code cfg.gain)

/-- R71, R75 (the two middle channel codes are the spec's own reading, decision D10, log entry 22): the channel's
codes in bits 6:5, and the complement of `ready` in bit 7. -/
def Obligations.ChannelAndReadyBits : Prop :=
  (Channel.code .ch1 = 0b00#2 ∧ Channel.code .ch2 = 0b01#2 ∧ Channel.code .ch3 = 0b10#2 ∧ Channel.code .ch4 = 0b11#2) ∧
  (∀ c, channelOfCode (Channel.code c) = c) ∧
  (∀ cfg : RegisterConfig, (packConfig cfg).extractLsb' 5 2 = Channel.code cfg.channel ∧
    (packConfig cfg).getLsbD 7 = !cfg.ready) ∧
  (∀ b : Byte, (unpackConfig b).ready = !b.getLsbD 7)

/-- R31, R32: the multipliers of the gains and the attributes of the resolutions, row by row (the two mask columns by
D7, the spec's own derivation). -/
def Obligations.AttributeTables : Prop :=
  (multiplier .g1 = 1 ∧ multiplier .g2 = 2 ∧ multiplier .g4 = 4 ∧ multiplier .g8 = 8) ∧
  (bits .r12 = 12 ∧ nbytes .r12 = 2 ∧ signMask .r12 = 0x00000800#32 ∧ extMask .r12 = 0xFFFFF000#32 ∧
    minCode .r12 = -2048 ∧ maxCode .r12 = 2047) ∧
  (bits .r14 = 14 ∧ nbytes .r14 = 2 ∧ signMask .r14 = 0x00002000#32 ∧ extMask .r14 = 0xFFFFC000#32 ∧
    minCode .r14 = -8192 ∧ maxCode .r14 = 8191) ∧
  (bits .r16 = 16 ∧ nbytes .r16 = 2 ∧ signMask .r16 = 0x00008000#32 ∧ extMask .r16 = 0xFFFF0000#32 ∧
    minCode .r16 = -32768 ∧ maxCode .r16 = 32767) ∧
  (bits .r18 = 18 ∧ nbytes .r18 = 3 ∧ signMask .r18 = 0x00020000#32 ∧ extMask .r18 = 0xFFFC0000#32 ∧
    minCode .r18 = -131072 ∧ maxCode .r18 = 131071)

/-- R70, R77, R78: words written out bit by bit from the patterns decode to the instructions they stand for (that channel
code 01 is `CH2` and 10 is `CH3` is the spec's decision D10, log entry 22). -/
def Obligations.WrittenWordsDecode : Prop :=
  -- `rccmssgg` = 0 01 1 10 11
  decode .enc [0b00111011#8] = .ok (.cfgEnc true .ch2 .continuous .r16 .g8) ∧
  decode .dec [0b00111011#8] = .ok (.cfgDec 0b00111011#8) ∧
  -- 24 data bits, then `rccm11gg` = 1 10 0 11 10
  decode .smp [0x12#8, 0x34#8, 0x56#8, 0b11001110#8] = .ok (.smpDecW3 0x123456#24 false .ch3 .oneShot .g4) ∧
  -- 16 data bits, then `rccm01gg` = 0 10 1 01 10, then `xxxxSSxx` with SS = 10
  decode .smp [0x12#8, 0x34#8, 0b01010110#8, 0b01111000#8] =
    .ok (.smpDecW2R14 0x1234#16 true .ch3 .continuous .g4 0b01111000#8)

/-- R82: the operation map. Rows 1 and 2 are selected by the unit alone; rows 3 to 7 by the masks over the word
`W = buf[0] : buf[1] : buf[2] : buf[3]`, the first that holds applying. The operands are the row's fields. -/
def Obligations.OperationMap : Prop :=
  (∀ b, ∃ r c m res g, decode .enc [b] = .ok (.cfgEnc r c m res g)) ∧
  (∀ b, decode .dec [b] = .ok (.cfgDec b)) ∧
  (∀ w, w < 2 ^ 32 →
    if w &&& 0x0000000C = 0x0000000C then
      ∃ c m, decodeTableWord 32 w = some (.smpDecW3 (BitVec.ofNat 24 (w / 2 ^ 8)) (!w.testBit 7) c m
        (gainOfCode (BitVec.ofNat 2 w)))
    else
      ∃ c m, decodeTableWord 32 w = some (
        let d := BitVec.ofNat 16 (w / 2 ^ 16)
        let r := !w.testBit 15
        let g := gainOfCode (BitVec.ofNat 2 (w / 2 ^ 8))
        let t := BitVec.ofNat 8 w
        if w &&& 0x00000C00 = 0x00000000 then .smpDecW2R12 d r c m g t
        else if w &&& 0x00000C00 = 0x00000400 then .smpDecW2R14 d r c m g t
        else if w &&& 0x00000C00 = 0x00000800 then .smpDecW2R16 d r c m g t
        else .smpDecW2R18 d r c m g t))

/-- R77, R78, R100: decoding the encoding of any well-formed instruction gives the instruction back, with every
operand at every value its field admits. -/
def Obligations.DecodeOfEncode : Prop :=
  ∀ i : Instr, i.wellFormed = true → decode i.blockUnit (encode i) = .ok i

/-- R76, R83: what the decoder reads is well formed, drives the unit it was read for, and encodes to the very bytes
it was read from: no bit of a word is dropped and no two instructions share a word. -/
def Obligations.EncodeOfDecode : Prop :=
  ∀ (u : BlockUnit) (bytes : List Byte) (i : Instr), decode u bytes = .ok i →
    i.wellFormed = true ∧ i.blockUnit = u ∧ encode i = bytes

/-! ## The Register Codec -/

/-- R100: `CFG.ENC` gives the byte `nrdy : channel : sample_mode : resolution : gain`, for every operand and in every
state, writes nothing else, and raises nothing; different operands give different bytes. -/
def Obligations.CfgEncGivesByte : Prop :=
  (∀ (s : State) r c m res g,
    exec (.cfgEnc r c m res g) s =
      .next { s with
        encOut := some (BitVec.ofBool (!r) ++ Channel.code c ++ SampleMode.code m ++ Resolution.code res ++ Gain.code g) }) ∧
  (∀ (s t : State) r c m res g r' c' m' res' g',
    exec (.cfgEnc r c m res g) s = .next t → exec (.cfgEnc r' c' m' res' g') s = .next t →
      r = r' ∧ c = c' ∧ m = m' ∧ res = res' ∧ g = g')

/-- R101: `CFG.DEC` gives the five fields of the byte, for every byte and in every state, writes nothing else, and
raises nothing. -/
def Obligations.CfgDecGivesFields : Prop :=
  ∀ (s : State) (b : Byte), ∃ cfg : RegisterConfig,
    exec (.cfgDec b) s = .next { s with decOut := some cfg } ∧
    cfg.ready = decide (b >>> 7 = 0#8) ∧
    (Channel.code cfg.channel).toNat = (b &&& 0x60#8).toNat / 2 ^ 5 ∧
    (SampleMode.code cfg.sampleMode).toNat = (b &&& 0x10#8).toNat / 2 ^ 4 ∧
    (Resolution.code cfg.resolution).toNat = (b &&& 0x0C#8).toNat / 2 ^ 2 ∧
    (Gain.code cfg.gain).toNat = (b &&& 0x03#8).toNat

/-- R102: for every record, with either value of `ready`, `CFG.DEC` of `CFG.ENC`'s byte gives all five fields back. -/
def Obligations.RecordRoundTrip : Prop :=
  ∀ (s : State) (cfg : RegisterConfig), ∃ b s1 s2,
    exec (.cfgEnc cfg.ready cfg.channel cfg.sampleMode cfg.resolution cfg.gain) s = .next s1 ∧ s1.encOut = some b ∧
    exec (.cfgDec b) s1 = .next s2 ∧ s2.decOut = some cfg

/-- R103: for every byte, bit 7 included, `CFG.ENC` of `CFG.DEC`'s record gives the byte back, and every record is some
byte's: the two are mutually inverse bijections. -/
def Obligations.ByteRoundTrip : Prop :=
  (∀ (s : State) (b : Byte), ∃ cfg s1 s2,
    exec (.cfgDec b) s = .next s1 ∧ s1.decOut = some cfg ∧
    exec (.cfgEnc cfg.ready cfg.channel cfg.sampleMode cfg.resolution cfg.gain) s1 = .next s2 ∧ s2.encOut = some b) ∧
  (∀ (s : State) (cfg : RegisterConfig), ∃ b s1, exec (.cfgDec b) s = .next s1 ∧ s1.decOut = some cfg)

/-- R104: each field moves only its own bits of the byte, and the byte is the sum of the fields in their places. -/
def Obligations.FieldIndependence : Prop :=
  ∀ (s : State) r c m res g, ∃ b,
    exec (.cfgEnc r c m res g) s = .next { s with encOut := some b } ∧
    b.toNat = 0x80 * (1 - r.toNat) + 0x20 * (Channel.code c).toNat + 0x10 * (SampleMode.code m).toNat +
      0x04 * (Resolution.code res).toNat + (Gain.code g).toNat ∧
    (b &&& 0x80#8).toNat = 0x80 * (1 - r.toNat) ∧ (b &&& 0x60#8).toNat = 0x20 * (Channel.code c).toNat ∧
    (b &&& 0x10#8).toNat = 0x10 * (SampleMode.code m).toNat ∧
    (b &&& 0x0C#8).toNat = 0x04 * (Resolution.code res).toNat ∧ (b &&& 0x03#8).toNat = (Gain.code g).toNat

/-! ## The Sample Decoder, form by form -/

/-- R130: form `W3` in closed form, with the test that makes it an `IllegalValue` and the voltage in millivolts. -/
def Obligations.FormW3 : Prop :=
  (∀ (s : State) (d : BitVec 24) r c m g,
    exec (.smpDecW3 d r c m g) s =
      .next { s with smpOut := some (closedForm 3 (Gain.code g).toNat d.toNat r) }) ∧
  (∀ d : BitVec 24,
    (arithCode 18 d.toNat ≤ -131072 ∨ arithCode 18 d.toNat ≥ 131071) ↔
      (d.toNat.testBit 17 = true ∧ d.toNat % 2 ^ 17 = 0) ∨ (d.toNat.testBit 17 = false ∧ d.toNat ≥ 131071)) ∧
  (∀ (d : BitVec 24) (g : Gain) (v : Voltage),
    closedForm 3 (Gain.code g).toNat d.toNat true = .ok v →
      v.mV = (arithCode 18 d.toNat : Rat) * 2 ^ (-6 - ((Gain.code g).toNat : Int)))

/-- R131: forms `W2.R12`, `W2.R14`, `W2.R16` in closed form (`s` = 0, 1, 2), whatever the channel, the mode and the
byte at index 3, as long as its bits 3:2 are not `11`. -/
def Obligations.FormsW2 : Prop :=
  (∀ (s : State) (d : BitVec 16) r c m g t, tailWellFormed t = true →
    exec (.smpDecW2R12 d r c m g t) s =
      .next { s with smpOut := some (closedForm 0 (Gain.code g).toNat d.toNat r) } ∧
    exec (.smpDecW2R14 d r c m g t) s =
      .next { s with smpOut := some (closedForm 1 (Gain.code g).toNat d.toNat r) } ∧
    exec (.smpDecW2R16 d r c m g t) s =
      .next { s with smpOut := some (closedForm 2 (Gain.code g).toNat d.toNat r) }) ∧
  (∀ (d : BitVec 16) (k : Nat), k ≤ 2 →
    ((arithCode (12 + 2 * k) d.toNat ≤ -(2 ^ (11 + 2 * k)) ∨ arithCode (12 + 2 * k) d.toNat ≥ 2 ^ (11 + 2 * k) - 1) ↔
      (d.toNat.testBit (11 + 2 * k) = true ∧ d.toNat % 2 ^ (11 + 2 * k) = 0) ∨
        (d.toNat.testBit (11 + 2 * k) = false ∧ d.toNat ≥ 2 ^ (11 + 2 * k) - 1))) ∧
  (∀ (d : BitVec 16) (k : Nat) (g : Gain) (v : Voltage), k ≤ 2 →
    closedForm k (Gain.code g).toNat d.toNat true = .ok v →
      v.mV = (arithCode (12 + 2 * k) d.toNat : Rat) * 2 ^ (-2 * (k : Int) - ((Gain.code g).toNat : Int)))

/-- R135 (the spec's decision D9, log entry 21): form `W2.R18`. The config byte is the third data byte as well; the
result is `IllegalValue` of the raw value exactly when bit 17 is clear and bits 23:18 are not all 0, and a voltage
otherwise. -/
def Obligations.FormW2R18 : Prop :=
  ∀ (s : State) (d : BitVec 16) r c m g t, tailWellFormed t = true →
    let cfgByte : Nat := 0x80 * (1 - r.toNat) + 0x20 * (Channel.code c).toNat + 0x10 * (SampleMode.code m).toNat + 0x0C +
      (Gain.code g).toNat
    let raw : Nat := d.toNat * 2 ^ 8 + cfgByte
    exec (.smpDecW2R18 d r c m g t) s = .next { s with smpOut := some (
      if r = false then .raised .notReady
      else if raw.testBit 17 = false ∧ raw / 2 ^ 18 ≠ 0 then .raised (.illegalValue raw (-131072) 131071)
      else .ok ⟨arithCode 18 raw * 2 ^ (3 - (Gain.code g).toNat)⟩) }

/-! ## The Sample Decoder as a whole, on every buffer -/

/-- R124 (with the masks of the spec's decision D7, log entry 20): or-ing the extension mask in when the sign bit is
set gives, on every raw value of 24 bits, the code that R124 names in arithmetic terms; it is the plain sign extension
of the low bits unless the sign bit is clear and bits above it are set. -/
def Obligations.SignExtension : Prop :=
  ∀ (res : Resolution) (raw : Word32), raw.toNat < 2 ^ 24 →
    (signExtend res raw =
      if raw.getLsbD (bits res - 1) then raw ||| (0xFFFFFFFF#32 <<< bits res) else raw) ∧
    (signExtend res raw).toInt = arithCode (bits res) raw.toNat ∧
    ((raw.toNat < 2 ^ (bits res - 1) ∨ raw.getLsbD (bits res - 1) = true) →
      signExtend res raw = (raw.setWidth (bits res)).signExtend 32)

/-- R121, R122, R123, R125: the buffer decides everything. The config byte is `buf[3]` when `buf[3] & 0x0C = 0x0C` and
`buf[2]` otherwise; the raw value is 3 bytes when that byte says `R18` and 2 bytes otherwise; the rest is the closed
form. This holds of all 2^32 buffers, the stray-selector input of R136 and the corner of R135 among them. The closed
form is the spec's inference: the exact voltage is log entry 19, the code of raw bits above the sign bit log entry 20,
the corner log entry 21. -/
def Obligations.SmpDecOnEveryBuffer : Prop :=
  ∀ (s : State) (buf : ReadBuffer),
    let c : Byte := if buf.b3 &&& 0x0C#8 = 0x0C#8 then buf.b3 else buf.b2
    let k := c.toNat / 4 % 4
    let raw : Nat := if k = 3 then buf.b0.toNat * 2 ^ 16 + buf.b1.toNat * 2 ^ 8 + buf.b2.toNat
      else buf.b0.toNat * 2 ^ 8 + buf.b1.toNat
    exec (decodeBuffer buf) s =
      .next { s with smpOut := some (closedForm k (c.toNat % 4) raw (decide (c.toNat < 0x80))) }

/-- R201, R122: `NotReady` exactly when bit 7 of the byte that step 1 chooses is 1, regardless of the data bytes and so
before any range check (R205); the codec never raises it. -/
def Obligations.NotReadyExactly : Prop :=
  (∀ (s : State) (buf : ReadBuffer), ∃ res, exec (decodeBuffer buf) s = .next { s with smpOut := some res } ∧
    (res = .raised .notReady ↔
      (if buf.b3 &&& 0x0C#8 = 0x0C#8 then buf.b3 else buf.b2).getLsbD 7 = true)) ∧
  (∀ (s : State) (i : Instr), i.blockUnit ≠ .smp → ∃ t, exec i s = .next t ∧ t.smpOut = s.smpOut)

/-- R202: `IllegalValue` exactly when the chosen byte is ready and the code is not strictly between the bounds of its
resolution, with the sign-extended code and those bounds as payload; the codec never raises it. The code of raw bits
above the sign bit is the spec's decision D7 (log entry 20) and the corner form's raw value D9 (log entry 21). -/
def Obligations.IllegalValueExactly : Prop :=
  (∀ (s : State) (buf : ReadBuffer) (value mn mx : Int),
    let c : Byte := if buf.b3 &&& 0x0C#8 = 0x0C#8 then buf.b3 else buf.b2
    let k := c.toNat / 4 % 4
    let raw : Nat := if k = 3 then buf.b0.toNat * 2 ^ 16 + buf.b1.toNat * 2 ^ 8 + buf.b2.toNat
      else buf.b0.toNat * 2 ^ 8 + buf.b1.toNat
    exec (decodeBuffer buf) s = .next { s with smpOut := some (.raised (.illegalValue value mn mx)) } ↔
      c.getLsbD 7 = false ∧ value = arithCode (12 + 2 * k) raw ∧
      mn = -(2 ^ (11 + 2 * k)) ∧ mx = 2 ^ (11 + 2 * k) - 1 ∧ (value ≤ mn ∨ mx ≤ value)) ∧
  (∀ (s : State) (i : Instr), i.blockUnit ≠ .smp → ∃ t, exec i s = .next t ∧ t.smpOut = s.smpOut)

/-- R126: a voltage is given exactly when the chosen byte is ready and the code strictly between the bounds, and then
`voltage_mV = code * 2 * V_ref_mV / 2^bits / gain_multiplier` with `V_ref_mV = 2048`. That this is the exact rational,
with no truncation anywhere, is the spec's decision D4 and D14 (log entry 19). -/
def Obligations.VoltageFormula : Prop :=
  ∀ (s : State) (buf : ReadBuffer),
    let c := unpackConfig (configByte buf)
    let code := sampleCode buf c.resolution
    ∃ res, exec (decodeBuffer buf) s = .next { s with smpOut := some res } ∧
      ((∃ v, res = .ok v) ↔ c.ready = true ∧ minCode c.resolution < code ∧ code < maxCode c.resolution) ∧
      ∀ v, res = .ok v → v.mV = (code : Rat) * 2 * 2048 / 2 ^ bits c.resolution / (multiplier c.gain : Rat)

/-- R132: for each resolution (code `k`) and gain, the voltages that some buffer gives are exactly the codes strictly
between the bounds, each times one LSB, `2^(9 − 2k − g)` in units of 2^−9 mV: none is missing and none is beyond. -/
def Obligations.AttainableVoltages : Prop :=
  ∀ (res : Resolution) (gain : Gain) (q : Int),
    (∃ buf, (unpackConfig (configByte buf)).resolution = res ∧ (unpackConfig (configByte buf)).gain = gain ∧
      ∀ s : State, exec (decodeBuffer buf) s = .next { s with smpOut := some (.ok ⟨q⟩) }) ↔
    ∃ code : Int, minCode res < code ∧ code < maxCode res ∧
      q = code * 2 ^ (9 - 2 * (Resolution.code res).toNat - (Gain.code gain).toNat)

/-- R127: the code never leaves −131072 … 16646143, and a valid code times `2 · 2048 · VREF_SCALE` stays inside a
signed 64-bit accumulator for every `VREF_SCALE < 2^34`. -/
def Obligations.NoOverflow : Prop :=
  ∀ (buf : ReadBuffer) (res : Resolution),
    (-131072 ≤ sampleCode buf res ∧ sampleCode buf res ≤ 16646143) ∧
    (∀ scale : Nat, scale < 2 ^ 34 → minCode res < sampleCode buf res → sampleCode buf res < maxCode res →
      -(2 ^ 63) ≤ sampleCode buf res * 2 * 2048 * scale ∧ sampleCode buf res * 2 * 2048 * scale < 2 ^ 63)

/-- R134, R56, R83: the channel and the mode of the echoed config byte change nothing, nor do the ignored bits of
`buf[3]` in layout W2 (in form `W2.R18` the channel and the mode are data bits as well, R135). -/
def Obligations.IgnoredBits : Prop :=
  ∀ (s : State) r g c c' m m',
    (∀ d, exec (.smpDecW3 d r c m g) s = exec (.smpDecW3 d r c' m' g) s) ∧
    (∀ d t t', tailWellFormed t = true → tailWellFormed t' = true →
      exec (.smpDecW2R12 d r c m g t) s = exec (.smpDecW2R12 d r c' m' g t') s ∧
      exec (.smpDecW2R14 d r c m g t) s = exec (.smpDecW2R14 d r c' m' g t') s ∧
      exec (.smpDecW2R16 d r c m g t) s = exec (.smpDecW2R16 d r c' m' g t') s ∧
      exec (.smpDecW2R18 d r c m g t) s = exec (.smpDecW2R18 d r c m g t') s)

/-- R137: at 12 bits, 14 bits and 18 bits (layout W3), with the sign bit set the raw bits above it have no effect; with
it clear any of them makes a ready sample an `IllegalValue` of the whole raw value. -/
def Obligations.BitsAboveSign : Prop :=
  ∀ (s : State) r c m g,
    (∀ d d' : BitVec 24, d.getLsbD 17 = true → d'.getLsbD 17 = true →
      d.extractLsb' 0 17 = d'.extractLsb' 0 17 → exec (.smpDecW3 d r c m g) s = exec (.smpDecW3 d' r c m g) s) ∧
    (∀ d : BitVec 24, d.getLsbD 17 = false → d.extractLsb' 18 6 ≠ 0#6 →
      exec (.smpDecW3 d true c m g) s =
        .next { s with smpOut := some (.raised (.illegalValue d.toNat (-131072) 131071)) }) ∧
    (∀ t, tailWellFormed t = true →
      (∀ d d' : BitVec 16, d.getLsbD 11 = true → d'.getLsbD 11 = true → d.extractLsb' 0 11 = d'.extractLsb' 0 11 →
        exec (.smpDecW2R12 d r c m g t) s = exec (.smpDecW2R12 d' r c m g t) s) ∧
      (∀ d : BitVec 16, d.getLsbD 11 = false → d.extractLsb' 12 4 ≠ 0#4 →
        exec (.smpDecW2R12 d true c m g t) s =
          .next { s with smpOut := some (.raised (.illegalValue d.toNat (-2048) 2047)) }) ∧
      (∀ d d' : BitVec 16, d.getLsbD 13 = true → d'.getLsbD 13 = true → d.extractLsb' 0 13 = d'.extractLsb' 0 13 →
        exec (.smpDecW2R14 d r c m g t) s = exec (.smpDecW2R14 d' r c m g t) s) ∧
      (∀ d : BitVec 16, d.getLsbD 13 = false → d.extractLsb' 14 2 ≠ 0#2 →
        exec (.smpDecW2R14 d true c m g t) s =
          .next { s with smpOut := some (.raised (.illegalValue d.toNat (-8192) 8191)) }))

/-! ## The block as a whole -/

/-- R20, R50, R206: every instruction answers a next state, in every state and with every operand, and changes nothing
but the output of the unit it drives: no other output, no byte of the read buffer, nothing of the environment. -/
def Obligations.InstructionFrame : Prop :=
  ∀ (i : Instr) (s : State), ∃ t, exec i s = .next t ∧
    (i.blockUnit ≠ .enc → t.encOut = s.encOut) ∧ (i.blockUnit ≠ .dec → t.decOut = s.decOut) ∧
    (i.blockUnit ≠ .smp → t.smpOut = s.smpOut) ∧
    (∀ a, t.buf.read a = s.buf.read a) ∧ t.buf = s.buf ∧ t.program = s.program ∧ t.task = s.task ∧ t.sink = s.sink ∧
    t.collected = s.collected ∧ t.handle = s.handle ∧ t.trace = s.trace ∧ t.results = s.results ∧
    t.writeReplies = s.writeReplies ∧ t.readReplies = s.readReplies ∧ t.draws = s.draws

/-- R20, R129: the output of the driven unit is a function of the operand alone: in any two states, whatever was
evaluated before and whatever the environment holds, one instruction gives one output. -/
def Obligations.OutputsDependOnOperandsOnly : Prop :=
  ∀ (i : Instr) (s s' : State), ∃ t t', exec i s = .next t ∧ exec i s' = .next t' ∧
    (i.blockUnit = .enc → t.encOut = t'.encOut ∧ t.encOut ≠ none) ∧
    (i.blockUnit = .dec → t.decOut = t'.decOut ∧ t.decOut ≠ none) ∧
    (i.blockUnit = .smp → t.smpOut = t'.smpOut ∧ t.smpOut ≠ none)

/-- R81: "The three units are independent; they can be evaluated in any order". -/
def Obligations.UnitsCommute : Prop :=
  ∀ (i j : Instr) (s : State), i.blockUnit ≠ j.blockUnit → ∃ a b t,
    exec i s = .next a ∧ exec j a = .next t ∧ exec j s = .next b ∧ exec i b = .next t

/-! ## The step -/

/-- R82 (with log entries 1 and 3 for how requests are held): a step whose next request, in the call in progress or as a
line of the program, drives a unit is `exec` of the instruction that the unit's operand decodes to, at the state with
the request taken. The operand of unit SMP is the read buffer, whatever it holds (log entry 5). -/
def Obligations.StepRunsDecodedInstruction : Prop :=
  ∀ (s s' : State) (d : Drive) (i : Instr), s.takes (.drive d) s' →
    (match d with
      | .enc cfg => i = .cfgEnc cfg.ready cfg.channel cfg.sampleMode cfg.resolution cfg.gain
      | .dec b => decode .dec [b] = .ok i
      | .smp => decode .smp [s.buf.byteAt 0, s.buf.byteAt 1, s.buf.byteAt 2, s.buf.byteAt 3] = .ok i) →
    step s = exec i s'

/-- Log entry 2: the instruction of a table word, put where the step takes its next one, is the one that runs, and
only the buffer's bytes and the requests differ from the state it was put into. A word of any other length than the
ports' 8 and 32 bits is no instruction and is refused (R54 and the spec's decision D8). -/
def Obligations.FetchWordRuns : Prop :=
  (∀ (s : State) (w : Nat) (i : Instr),
    (decodeTableWord 8 w = some i → step (s.withFetchWord 8 w) = exec i s) ∧
    (decodeTableWord 32 w = some i →
      step (s.withFetchWord 32 w) = exec i { s with buf := s.buf.fill (bufferOfWord w) })) ∧
  (∀ (s : State) (nbits w : Nat), nbits ≠ 8 → nbits ≠ 32 →
    decodeTableWord nbits w = none ∧
    ∃ n, n ≠ 4 ∧ step (s.withFetchWord nbits w) = .refused (.bufferLength n))

/-- R232, P10 (log entry 5): unit SMP can be driven from the start, with any buffer. An index that was written is read
as that byte, an index that nothing has written as a free byte, and the step gives the result of `SMP.DEC` on those
four bytes, with nothing else changed. -/
def Obligations.UnwrittenBufferRuns : Prop :=
  ∀ (s s' : State), s.takes (.drive .smp) s' → ∃ buf : ReadBuffer,
    step s = .next { s' with smpOut := some (smpDec buf) } ∧
    (∀ (a : Nat) (b : Byte), buf.bytes[a]? = some b →
      s.buf.read a = some b ∨ (s.buf.read a = none ∧ b = Config.unwrittenByte a))

/-- R217, R232: from every state with the invariant no step ends in a fault, and no instruction ends in a fault or a
refusal in any state at all. -/
def Obligations.NoStepFaults : Prop :=
  (∀ (s : State) (f : Fault), s.Inv → step s ≠ .fault f) ∧
  (∀ (i : Instr) (s : State), (∀ f, exec i s ≠ .fault f) ∧ (∀ r, exec i s ≠ .refused r))

/-- R54 and the spec's decision D8: a caller's own buffer of 4 bytes becomes the operand, byte by byte; one of another
length is refused. -/
def Obligations.HandedBuffer : Prop :=
  ∀ (s s' : State) (bytes : List Byte), s.takes (.act (.hand bytes)) s' →
    (bytes.length ≠ 4 → step s = .refused (.bufferLength bytes.length)) ∧
    (bytes.length = 4 → ∃ t, step s = .next t ∧ (∀ a, a < 4 → t.buf.read a = bytes[a]?) ∧
      (∀ a, 4 ≤ a → t.buf.read a = s.buf.read a) ∧ t = { s' with buf := t.buf })

/-- R41, R230: before anything is driven, no output exists, the environment holds no handle, and a step in which
nothing is asked changes nothing (log entry 3). -/
def Obligations.NothingDrivenNothingChanges : Prop :=
  State.reset.encOut = none ∧ State.reset.decOut = none ∧ State.reset.smpOut = none ∧ State.reset.handle = none ∧
  State.reset.buf = [] ∧ (∀ s : State, s.task = [] → s.program = [] → step s = .next s)

/-- The invariant of the machine holds in the state it starts from. -/
def Obligations.InvariantAtReset : Prop :=
  State.reset.Inv

/-- R35, R50, R127, R202: every step keeps the invariant: the read buffer is canonical, every voltage that stands at the
output, is being collected or was ever given out is below 2048 mV in magnitude, and every `IllegalValue` carries the
bounds of one resolution and a reachable code outside them. Three clauses rest on the model's choices: that the buffer
is unwritten or whole (log entries 5 and 15), that stored configurations have their mode's `sample_mode` bit (log entry
14; that there is at least one is R39's own), and that a protocol finds the sample it asks for (log entries 1 and 25). -/
def Obligations.StepKeepsInvariant : Prop :=
  ∀ s t : State, s.Inv → step s = .next t → t.Inv

/-! ## The environment -/

/-- R164, R231: the RegisterConfig of a Configuration takes its `sample_mode` from the mode protocol (the spec's own
inference, log entry 14) and `ready` from the argument (log entry 13), with the delay of R165; the defaults are the
first channel, 12 bits and ×1; ContinuousMode starts Uninitialized; MultiShot takes one pair from each Configuration,
in order, for any list of one or more (R39; that none is refused is said in ImpossibleRequestsRefused, log entry 28).
That `new` delivers nothing, its result being the handle, is the model's choice (log entry 16). -/
def Obligations.ConfigurationBecomesRegisterConfig : Prop :=
  (∀ t, defaultConfiguration t = ⟨.ch1, .r12, .g1, t⟩) ∧
  (∀ (m : SampleMode) (c : Configuration) (r : Bool) (d : Micros), delayOf c = some d →
    shotOf m ⟨c, r⟩ = some ⟨⟨r, c.channel, m, c.resolution, c.gain⟩, d⟩) ∧
  (∀ (s : State) (rest : List Op) (a : BusAddress), s.task = [] → s.handle = none →
    (∀ (c : Configuration) (r : Bool) (d : Micros), delayOf c = some d →
      (s.program = .call (.new a (.oneShot ⟨c, r⟩)) :: rest →
        step s = .next { s with
          program := rest, sink := .caller,
          handle := some ⟨a, .oneShot ⟨⟨r, c.channel, .oneShot, c.resolution, c.gain⟩, d⟩⟩ }) ∧
      (s.program = .call (.new a (.continuous ⟨c, r⟩)) :: rest →
        step s = .next { s with
          program := rest, sink := .caller,
          handle := some ⟨a, .continuous ⟨⟨r, c.channel, .continuous, c.resolution, c.gain⟩, d⟩ false⟩ })) ∧
    (∀ (setups : List Setup) (shots : List Shot), shots ≠ [] → setups.map (shotOf .oneShot) = shots.map some →
      s.program = .call (.new a (.multiShot setups)) :: rest →
      step s = .next { s with program := rest, sink := .caller, handle := some ⟨a, .multiShot shots⟩ }))

/-- R165: the delay is the absolute value, or nominal plus offset saturating at zero (where the sum fits the timer's 32
bits). -/
def Obligations.DelayRule : Prop :=
  ∀ (ch : Channel) (res : Resolution) (g : Gain),
    (∀ us, delayOf ⟨ch, res, g, .absolute us⟩ = some us) ∧
    (∀ d : Int, (Config.nominalConversionTime res : Int) + d ≤ 0 → delayOf ⟨ch, res, g, .offset d⟩ = some 0#32) ∧
    (∀ d : Int, 0 ≤ (Config.nominalConversionTime res : Int) + d →
      (Config.nominalConversionTime res : Int) + d < 2 ^ 32 →
        ∃ us, delayOf ⟨ch, res, g, .offset d⟩ = some us ∧ (us.toNat : Int) = Config.nominalConversionTime res + d)

/-- Log entry 12 (the source does not describe the case; U10 says to refuse): a sum of 2^32 or more has no delay, and
`new` and `configure` with such a Configuration are refused by name, in every mode. -/
def Obligations.DelayOverflowRefused : Prop :=
  (∀ (ch : Channel) (res : Resolution) (g : Gain) (d : Int), 2 ^ 32 ≤ (Config.nominalConversionTime res : Int) + d →
    delayOf ⟨ch, res, g, .offset d⟩ = none) ∧
  (∀ (s : State) (rest : List Op) (setup : ModeSetup), s.task = [] → setup.overflows →
    (∀ a, s.handle = none → s.program = .call (.new a setup) :: rest → step s = .refused .delayOverflow) ∧
    (∀ h, s.handle = some h → h.mode.sameMode setup = true → h.mode.sameCount setup = true →
      s.program = .call (.configure setup) :: rest → step s = .refused .delayOverflow))

/-- R167: one `measure` of OneShotMode, bus willing: it writes the stored config byte with `ready` forced false, waits
the stored delay, reads, decodes, and gives the caller the block's own result; "no state survives between calls
except the stored configuration". -/
def Obligations.OneShotMeasure : Prop :=
  ∀ (s : State) (rest : List Op) (a : BusAddress) (p : Shot) (ws : List WriteReply) (rs : List ReadReply)
      (b0 b1 b2 b3 : Byte),
    s.task = [] → s.program = .call .measure :: rest → s.handle = some ⟨a, .oneShot p⟩ →
    s.writeReplies = .accepted :: ws → s.readReplies = .filled (b0, b1, b2, b3) :: rs →
    ∃ t byte, Host.Core.run Sys2Proof.core 7 s = .next t ∧
      byte = packConfig { p.cfg with ready := false } ∧ byte.getLsbD 7 = true ∧
      t.trace = s.trace ++ [.write a byte, .delay p.delay, .read a] ∧
      t.results = s.results ++ [⟨.caller, match smpDec ⟨b0, b1, b2, b3⟩ with
        | .ok v => .voltage v
        | .raised e => .error (.sample e)⟩] ∧
      t.encOut = some byte ∧ t.smpOut = some (smpDec ⟨b0, b1, b2, b3⟩) ∧ t.decOut = s.decOut ∧
      t.handle = s.handle ∧ t.task = [] ∧ t.program = rest ∧ t.writeReplies = ws ∧ t.readReplies = rs ∧
      t.draws = s.draws ∧ t.collected = []

/-- R168: the first `measure` of ContinuousMode writes the start-conversion byte (the stored one, whose `ready` is the
open parameter P11, log entry 13), waits the full delay, becomes Running, reads and decodes. -/
def Obligations.ContinuousFirstMeasure : Prop :=
  ∀ (s : State) (rest : List Op) (a : BusAddress) (p : Shot) (ws : List WriteReply) (rs : List ReadReply)
      (b0 b1 b2 b3 : Byte),
    s.task = [] → s.program = .call .measure :: rest → s.handle = some ⟨a, .continuous p false⟩ →
    s.writeReplies = .accepted :: ws → s.readReplies = .filled (b0, b1, b2, b3) :: rs →
    ∃ t, Host.Core.run Sys2Proof.core 8 s = .next t ∧
      t.trace = s.trace ++ [.write a (packConfig p.cfg), .delay p.delay, .read a] ∧
      t.handle = some ⟨a, .continuous p true⟩ ∧
      t.results = s.results ++ [⟨.caller, match smpDec ⟨b0, b1, b2, b3⟩ with
        | .ok v => .voltage v
        | .raised e => .error (.sample e)⟩] ∧
      t.task = [] ∧ t.program = rest ∧ t.writeReplies = ws ∧ t.readReplies = rs

/-- R171, R86 (log entry 17): a pull of the stream performs exactly one underlying measurement, the very one that
`measure` performs in the handle's mode; only who gets the result differs. What a measurement consists of is R86's
expansion; that the first Continuous one writes the stored record's byte as it is (the start-conversion byte is open,
P11) is log entry 13. The sequence of no sub-conversions is only the end of a MultiShot one: no handle owns none (R39, log
entry 28). -/
def Obligations.PullIsOneMeasurement : Prop :=
  (∀ (s : State) (rest : List Op) (h : Handle), s.task = [] → s.handle = some h →
    (s.program = .call .measure :: rest →
      step s = .next { s with program := rest, task := measureSequence h.mode, sink := .caller, collected := [] }) ∧
    (s.program = .call .pull :: rest →
      step s = .next { s with program := rest, task := measureSequence h.mode, sink := .stream, collected := [] })) ∧
  (∀ p : Shot,
    let w : RegisterConfig := { p.cfg with ready := false }
    let four : List Micro := [.drive (.enc w), .act (.busWrite (packConfig w)), .act (.delay p.delay), .act .busRead,
      .drive .smp]
    measureSequence (.oneShot p) = four ++ [.book .returnSample] ∧
    measureSequence (.continuous p false) = [.drive (.enc p.cfg), .act (.busWrite (packConfig p.cfg)),
      .act (.delay p.delay), .book .markRunning, .act .busRead, .drive .smp, .book .returnSample] ∧
    measureSequence (.continuous p true) = [.act .busRead, .drive .smp, .book .returnSample] ∧
    measureSequence (.multiShot []) = [.book .returnArray] ∧
    ∀ ps, measureSequence (.multiShot (p :: ps)) = four ++ .book .collect :: measureSequence (.multiShot ps))

/-- R168, R169, R171: in state Running a `measure`, or a pull of the stream, issues only a read: no write, no delay. Its
result is the block's own, a `NotReady` included, and goes to the caller or to the stream; the handle stays as it
is, so the next one can be asked for. -/
def Obligations.ContinuousLaterMeasure : Prop :=
  ∀ (s : State) (rest : List Op) (a : BusAddress) (p : Shot) (rs : List ReadReply) (b0 b1 b2 b3 : Byte)
      (call : Call) (dest : Sink),
    (call = .measure ∧ dest = .caller ∨ call = .pull ∧ dest = .stream) →
    s.task = [] → s.program = .call call :: rest → s.handle = some ⟨a, .continuous p true⟩ →
    s.readReplies = .filled (b0, b1, b2, b3) :: rs →
    ∃ t, Host.Core.run Sys2Proof.core 4 s = .next t ∧ t.trace = s.trace ++ [.read a] ∧ t.handle = s.handle ∧
      t.results = s.results ++ [⟨dest, match smpDec ⟨b0, b1, b2, b3⟩ with
        | .ok v => .voltage v
        | .raised e => .error (.sample e)⟩] ∧
      t.task = [] ∧ t.program = rest ∧ t.writeReplies = s.writeReplies ∧ t.readReplies = rs ∧ t.encOut = s.encOut

/-- R170: `measure` of MultiShotMode, for every N (from 1 on by R39; N = 0 only where no run comes, log entry 28):
when every sub-conversion succeeds it executes the full OneShot sequence N times in strict order and gives the caller
the array of the N voltages indexed by i. -/
def Obligations.MultiShotCollectsAll : Prop :=
  ∀ (s : State) (rest : List Op) (a : BusAddress) (ps : List Shot) (ws : List WriteReply) (rs : List ReadReply)
      (bufs : List ReadBuffer) (vs : List Voltage),
    s.task = [] → s.program = .call .measure :: rest → s.handle = some ⟨a, .multiShot ps⟩ →
    bufs.length = ps.length → bufs.map smpDec = vs.map .ok →
    s.writeReplies = List.replicate ps.length .accepted ++ ws →
    s.readReplies = bufs.map (fun b => .filled (b.b0, b.b1, b.b2, b.b3)) ++ rs →
    ∃ t, Host.Core.run Sys2Proof.core (6 * ps.length + 2) s = .next t ∧
      t.results = s.results ++ [⟨.caller, .array vs⟩] ∧
      t.trace = s.trace ++ ps.flatMap (fun p =>
        [.write a (packConfig { p.cfg with ready := false }), .delay p.delay, .read a]) ∧
      t.handle = s.handle ∧ t.task = [] ∧ t.program = rest ∧ t.collected = [] ∧ t.writeReplies = ws ∧
      t.readReplies = rs

/-- R170: a single failure aborts the entire call: when sub-conversion `i` (after `done`, before `later`) gives an
error, that error alone is returned, the results before it are lost, and none after it is attempted. -/
def Obligations.MultiShotAbortsOnFirstError : Prop :=
  ∀ (s : State) (rest : List Op) (a : BusAddress) (done : List Shot) (p : Shot) (later : List Shot)
      (ws : List WriteReply) (rs : List ReadReply) (bufs : List ReadBuffer) (vs : List Voltage) (bad : ReadBuffer)
      (e : SmpError),
    s.task = [] → s.program = .call .measure :: rest → s.handle = some ⟨a, .multiShot (done ++ p :: later)⟩ →
    bufs.length = done.length → bufs.map smpDec = vs.map .ok → smpDec bad = .raised e →
    s.writeReplies = List.replicate (done.length + 1) .accepted ++ ws →
    s.readReplies = (bufs ++ [bad]).map (fun b => .filled (b.b0, b.b1, b.b2, b.b3)) ++ rs →
    ∃ t, Host.Core.run Sys2Proof.core (6 * done.length + 7) s = .next t ∧
      t.results = s.results ++ [⟨.caller, .error (.sample e)⟩] ∧
      t.trace = s.trace ++ (done ++ [p]).flatMap (fun q =>
        [.write a (packConfig { q.cfg with ready := false }), .delay q.delay, .read a]) ∧
      t.handle = s.handle ∧ t.task = [] ∧ t.program = rest ∧ t.collected = [] ∧ t.writeReplies = ws ∧
      t.readReplies = rs

/-- R203: any bus failure, at a write (`configure`'s among them) or a read, in a call or as a line of a program, by an
answer that is fixed from outside or free, ends the call in progress with `BusError`, the cause verbatim, given to
whoever the call belongs to; the block is not evaluated and the handle is as it was. No operation of the block gives
anybody such an error. -/
def Obligations.BusErrorEndsCall : Prop :=
  (∀ (s s' s'' : State) (h : Handle) (c : BusCause), s.handle = some h →
    (∀ b, s.takes (.act (.busWrite b)) s' → s'.answersWrite (.failed c) s'' →
      step s = .next { s'' with task := [], collected := [], trace := s.trace ++ [.write h.address b],
                                results := s.results ++ [⟨s'.sink, .error (.busError c)⟩] }) ∧
    (s.takes (.act .busRead) s' → s'.answersRead (.failed c) s'' → ∃ buf n,
      step s = .next { s'' with task := [], collected := [], trace := s.trace ++ [.read h.address],
                                results := s.results ++ [⟨s'.sink, .error (.busError c)⟩],
                                buf := buf, draws := n })) ∧
  (∀ (i : Instr) (s : State), ∃ t, exec i s = .next t ∧ t.results = s.results)

/-- R161, R162, R53: a bus write that succeeds and a delay change nothing but the record of what was asked; a bus read
that succeeds fills the buffer from index 0 with the device's four bytes; all this in a call or as a line of a program,
by an answer that is fixed from outside or a free value (log entry 6). That a delay needs no handle is the model's choice
(log entry 7). What a read that fails leaves in the buffer is free (log entry 15). -/
def Obligations.BusAndTimer : Prop :=
  (∀ (s s' : State) (us : Micros), s.takes (.act (.delay us)) s' →
    step s = .next { s' with trace := s.trace ++ [.delay us] }) ∧
  (∀ (s s' s'' : State) (h : Handle), s.handle = some h →
    (∀ b, s.takes (.act (.busWrite b)) s' → s'.answersWrite .accepted s'' →
      step s = .next { s'' with trace := s.trace ++ [.write h.address b] }) ∧
    (∀ b0 b1 b2 b3, s.takes (.act .busRead) s' → s'.answersRead (.filled (b0, b1, b2, b3)) s'' →
      ∃ t, step s = .next t ∧ t.buf.read 0 = some b0 ∧ t.buf.read 1 = some b1 ∧ t.buf.read 2 = some b2 ∧
        t.buf.read 3 = some b3 ∧ (∀ i, 4 ≤ i → t.buf.read i = s.buf.read i) ∧
        t = { s'' with trace := s.trace ++ [.read h.address], buf := t.buf }) ∧
    (∀ c, s.takes (.act .busRead) s' → s'.answersRead (.failed c) s'' →
      ∃ t, step s = .next t ∧ t.draws = s''.draws + 1 ∧ ∀ a, a < 4 →
        t.buf.read a = (Config.failedReadBuffer s''.draws).bytes[a]?))

/-- R168, R242: `configure` of ContinuousMode re-writes the config immediately and resets the delay, and keeps the
mode Uninitialized or Running as it was; when the bus fails the caller gets the error, the pair held afterwards is
the old or the new one (log entry 9) and the mode's state is still kept. The new pair has `sample_mode` CONT (log entry
14), `ready` from the argument (log entry 13) and the delay of its Configuration, absolute or offset; that the caller
is told `configured` is the model's (log entry 16). -/
def Obligations.ContinuousConfigure : Prop :=
  ∀ (s : State) (rest : List Op) (a : BusAddress) (old : Shot) (init : Bool) (c : Configuration) (r : Bool)
      (d : Micros) (ws : List WriteReply),
    s.task = [] → s.program = .call (.configure (.continuous ⟨c, r⟩)) :: rest →
    s.handle = some ⟨a, .continuous old init⟩ → delayOf c = some d →
    let new : Shot := ⟨⟨r, c.channel, .continuous, c.resolution, c.gain⟩, d⟩
    (s.writeReplies = .accepted :: ws → ∃ t, Host.Core.run Sys2Proof.core 5 s = .next t ∧
      t.trace = s.trace ++ [.write a (packConfig new.cfg)] ∧ t.handle = some ⟨a, .continuous new init⟩ ∧
      t.results = s.results ++ [⟨.caller, .configured⟩] ∧ t.task = [] ∧ t.program = rest ∧ t.writeReplies = ws) ∧
    (∀ cause, s.writeReplies = .failed cause :: ws → ∃ t kept, Host.Core.run Sys2Proof.core 4 s = .next t ∧
      t.trace = s.trace ++ [.write a (packConfig new.cfg)] ∧ t.handle = some ⟨a, .continuous kept init⟩ ∧
      (kept = old ∨ kept = new) ∧ t.results = s.results ++ [⟨.caller, .error (.busError cause)⟩] ∧ t.task = [] ∧
      t.program = rest ∧ t.writeReplies = ws)

/-- R167, R170: `configure` of OneShotMode replaces the stored pair, and that of MultiShotMode all N pairs at once,
without touching the bus (the caller is told `configured`, log entry 16); another count than N is refused (log entry
10). The new pairs have `sample_mode` ONESHOT (log entry 14), `ready` from the argument (log entry 13) and the delays of
their Configurations, absolute or offset. -/
def Obligations.ConfigureReplacesPairs : Prop :=
  ∀ (s : State) (rest : List Op) (a : BusAddress), s.task = [] →
    (∀ old c r d, s.program = .call (.configure (.oneShot ⟨c, r⟩)) :: rest → s.handle = some ⟨a, .oneShot old⟩ →
      delayOf c = some d →
      step s = .next { s with
        program := rest, sink := .caller, results := s.results ++ [⟨.caller, .configured⟩],
        handle := some ⟨a, .oneShot ⟨⟨r, c.channel, .oneShot, c.resolution, c.gain⟩, d⟩⟩ }) ∧
    (∀ olds (setups : List Setup), s.program = .call (.configure (.multiShot setups)) :: rest →
      s.handle = some ⟨a, .multiShot olds⟩ →
      (setups.length ≠ olds.length → step s = .refused (.shotCount setups.length)) ∧
      (∀ news : List Shot, setups.length = olds.length → setups.map (shotOf .oneShot) = news.map some →
        step s = .next { s with
          program := rest, sink := .caller, results := s.results ++ [⟨.caller, .configured⟩],
          handle := some ⟨a, .multiShot news⟩ }))

/-- R172, R173, as log entry 18 reads them: a call abandoned at the suspension point that follows `k` completed ones does
a beginning of the whole call with at most `k` bus operations and delays; a measurement or a pull abandoned before its
last suspension point gives nobody a voltage or an array (an error that comes before the cut is still given), and one let
past all of them is whole; a Continuous one is Running afterwards exactly when its delay has completed
(a stale initialization, R241); a Continuous `configure` abandoned at its bus write writes nothing and tells nobody, and
another mode's has no suspension point to be abandoned at. -/
def Obligations.AbandonedCall : Prop :=
  (∀ (k : Nat) (ms : List Micro), abandonAfter k ms <+: ms ∧ (abandonAfter k ms).countP isSuspension ≤ k ∧
    (ms.countP isSuspension ≤ k → abandonAfter k ms = ms)) ∧
  (∀ (k : Nat) (m : ModeState), k < (measureSequence m).countP isSuspension →
    (abandonAfter k (measureSequence m)).countP isSuspension = k ∧
    Micro.book .returnSample ∉ abandonAfter k (measureSequence m) ∧
    Micro.book .returnArray ∉ abandonAfter k (measureSequence m)) ∧
  (∀ (p : Shot) (k : Nat),
    (Micro.book .markRunning ∈ abandonAfter k (measureSequence (.continuous p false)) ↔ 2 ≤ k) ∧
    (Micro.book (.storeShot p) ∈ abandonAfter k (configureSequence p) ↔ 1 ≤ k) ∧
    (Micro.act (.busWrite (packConfig p.cfg)) ∈ abandonAfter k (configureSequence p) ↔ 1 ≤ k)) ∧
  (∀ (s : State) (rest : List Op) (h : Handle) (k : Nat), s.task = [] → s.handle = some h →
    (∀ dest, s.program = .call (.abandon dest k) :: rest →
      step s = .next { s with program := rest, task := abandonAfter k (measureSequence h.mode), sink := dest,
                              collected := [] }) ∧
    (∀ st p old init, s.program = .call (.abandonConfigure (.continuous st) k) :: rest →
      h.mode = .continuous old init → shotOf .continuous st = some p →
      step s = .next { s with program := rest, task := abandonAfter k (configureSequence p), sink := .caller }) ∧
    (∀ setup, s.program = .call (.abandonConfigure setup k) :: rest → (∀ old init, h.mode ≠ .continuous old init) →
      step s = step { s with program := .call (.configure setup) :: rest }))

/-- Log entries 7, 8, 10 and 28: what a caller cannot ask for is refused by name: a bus operation, in a call or as a line of
a program, or a call other than `new`, without a handle; a second handle; a MultiShot handle of no pairs; and any other
mode's configuration. -/
def Obligations.ImpossibleRequestsRefused : Prop :=
  (∀ s s' : State, s.handle = none →
    (∀ b, s.takes (.act (.busWrite b)) s' → step s = .refused .noHandle) ∧
    (s.takes (.act .busRead) s' → step s = .refused .noHandle)) ∧
  (∀ (s : State) (rest : List Op) (call : Call), s.task = [] → s.program = .call call :: rest →
    (s.handle = none → (∀ a setup, call ≠ .new a setup) → step s = .refused .noHandle) ∧
    (∀ h a setup, s.handle = some h → call = .new a setup → step s = .refused .handleExists) ∧
    (∀ a, s.handle = none → call = .new a (.multiShot []) → step s = .refused .noShots) ∧
    (∀ h setup k, s.handle = some h → (call = .configure setup ∨ call = .abandonConfigure setup k) →
      h.mode.sameMode setup = false → step s = .refused .modeMismatch))
end

