-- ==== Sys2Proof/Laws/Decode.lean ====
section
/-! SUPPORT. The laws of the formats: codes and enumerators, the fields of the configuration byte, the selector. -/

namespace Sys2Proof

@[simp] theorem channelOfCode_code (c : Channel) : channelOfCode c.code = c := by cases c <;> rfl
@[simp] theorem sampleModeOfCode_code (m : SampleMode) : sampleModeOfCode m.code = m := by cases m <;> rfl
@[simp] theorem resolutionOfCode_code (r : Resolution) : resolutionOfCode r.code = r := by cases r <;> rfl
@[simp] theorem gainOfCode_code (g : Gain) : gainOfCode g.code = g := by cases g <;> rfl

theorem code_channelOfCode : ∀ c : BitVec 2, (channelOfCode c).code = c := by decide
theorem code_sampleModeOfCode : ∀ c : BitVec 1, (sampleModeOfCode c).code = c := by decide
theorem code_resolutionOfCode : ∀ c : BitVec 2, (resolutionOfCode c).code = c := by decide
theorem code_gainOfCode : ∀ c : BitVec 2, (gainOfCode c).code = c := by decide

/-- The packed byte's fields are the record's. -/
theorem unpackConfig_packConfig (cfg : RegisterConfig) : unpackConfig (packConfig cfg) = cfg := by
  obtain ⟨r, c, m, s, g⟩ := cfg
  cases r <;> cases c <;> cases m <;> cases s <;> cases g <;> rfl

/-- The record's byte is the byte. -/
theorem packConfig_unpackConfig : ∀ b : Byte, packConfig (unpackConfig b) = b := by decide

/-- The readiness of a byte is the complement of its top bit. -/
theorem unpackConfig_ready : ∀ b : Byte, (unpackConfig b).ready = !b.getLsbD 7 := by decide

theorem unpackConfig_resolution (b : Byte) :
    (unpackConfig b).resolution = resolutionOfCode (b.extractLsb' 2 2) := rfl

theorem unpackConfig_gain (b : Byte) : (unpackConfig b).gain = gainOfCode (b.extractLsb' 0 2) := rfl

/-- The mask test of the selector is the test of bits 3:2. -/
theorem selectsW3_eq : ∀ b : Byte, selectsW3 b = (b.extractLsb' 2 2 == 0b11#2) := by decide

theorem selectsW3_of_tailWellFormed (t : Byte) (h : tailWellFormed t = true) : selectsW3 t = false := by
  rw [selectsW3_eq]; simpa [tailWellFormed] using h

theorem tailWellFormed_of_not_selectsW3 (t : Byte) (h : selectsW3 t = false) : tailWellFormed t = true := by
  rw [selectsW3_eq] at h; simpa [tailWellFormed] using h

/-- A config byte selects layout W3 exactly when its resolution is `R18`. -/
theorem selectsW3_iff_r18 : ∀ b : Byte, selectsW3 b = decide ((unpackConfig b).resolution = .r18) := by decide

@[simp] theorem selectsW3_packConfig (cfg : RegisterConfig) :
    selectsW3 (packConfig cfg) = decide (cfg.resolution = .r18) := by
  rw [selectsW3_iff_r18, unpackConfig_packConfig]

@[simp] theorem length_bytesOfWord (n w : Nat) : (bytesOfWord n w).length = n := by
  induction n with
  | zero => rfl
  | succ n ih => simp [bytesOfWord, ih]

/-- R54: only a word of exactly 32 bits is handed over as 4 bytes. -/
theorem handedLength_eq_four_iff {nbits : Nat} : handedLength nbits = 4 ↔ nbits = 32 := by
  unfold handedLength
  split <;> omega

end Sys2Proof
end

