-- ==== Sys2Proof/Laws/Memory.lean ====
section
/-! SUPPORT. The laws of the read buffer as memory: reading after writing, the canonical form, filling, the snapshot,
and what `MemRead` gives. -/

namespace Sys2Proof.Machine

@[simp] theorem Memory.read_nil (a : Nat) : Memory.read [] a = none := rfl

theorem Memory.read_cons (k : Nat) (v : Byte) (rest : Memory) (a : Nat) :
    Memory.read ((k, v) :: rest) a = if k = a then some v else Memory.read rest a := rfl

theorem Memory.read_none_of_risingFrom {m : Memory} {lo a : Nat} (h : Memory.risingFrom lo m = true)
    (ha : a < lo) : m.read a = none := by
  induction m generalizing lo with
  | nil => rfl
  | cons c rest ih =>
    obtain ⟨k, v⟩ := c
    simp only [Memory.risingFrom, Bool.and_eq_true, decide_eq_true_eq] at h
    rw [Memory.read_cons, if_neg (by omega)]
    exact ih h.2 (by omega)

@[simp] theorem Memory.read_write_same (m : Memory) (a : Nat) (b : Byte) : (m.write a b).read a = some b := by
  induction m with
  | nil => simp [Memory.write, Memory.read_cons]
  | cons c rest ih =>
    obtain ⟨k, v⟩ := c
    unfold Memory.write
    split
    · simp [Memory.read_cons]
    · split
      · simp [Memory.read_cons]
      · simp [Memory.read_cons, *]

@[simp] theorem Memory.read_write_other (m : Memory) {a a' : Nat} (b : Byte) (h : a ≠ a') :
    (m.write a b).read a' = m.read a' := by
  induction m with
  | nil => simp [Memory.write, Memory.read_cons, h]
  | cons c rest ih =>
    obtain ⟨k, v⟩ := c
    unfold Memory.write
    split
    · simp [Memory.read_cons, h]
    · split
      · simp_all [Memory.read_cons]
      · simp [Memory.read_cons, ih]

theorem Memory.risingFrom_write {m : Memory} {lo a : Nat} (b : Byte) (h : Memory.risingFrom lo m = true)
    (hlo : lo ≤ a) (ha : a < 4) : Memory.risingFrom lo (m.write a b) = true := by
  induction m generalizing lo with
  | nil => simp [Memory.write, Memory.risingFrom, hlo, ha]
  | cons c rest ih =>
    obtain ⟨k, v⟩ := c
    simp only [Memory.risingFrom, Bool.and_eq_true, decide_eq_true_eq] at h
    unfold Memory.write
    split
    · simp [Memory.risingFrom, h, hlo, ha]; omega
    · split
      · subst_vars; simp [Memory.risingFrom, h]
      · simp only [Memory.risingFrom, Bool.and_eq_true, decide_eq_true_eq]
        exact ⟨h.1, ih h.2 (by omega)⟩

/-- Writing inside the address space keeps the canonical form. -/
theorem Memory.wf_write {m : Memory} {a : Nat} (b : Byte) (h : m.wf = true) (ha : a < 4) : (m.write a b).wf = true :=
  Memory.risingFrom_write b h (Nat.zero_le a) ha

/-- Filling the buffer keeps the canonical form. -/
theorem Memory.wf_fill {m : Memory} (buf : ReadBuffer) (h : m.wf = true) : (m.fill buf).wf = true :=
  Memory.wf_write _ (Memory.wf_write _ (Memory.wf_write _ (Memory.wf_write _ h (by decide)) (by decide)) (by decide))
    (by decide)

/-- What every index reads after a fill. -/
theorem Memory.read_fill (m : Memory) (buf : ReadBuffer) (a : Nat) :
    (m.fill buf).read a =
      if a = 0 then some buf.b0 else if a = 1 then some buf.b1 else if a = 2 then some buf.b2
      else if a = 3 then some buf.b3 else m.read a := by
  unfold Memory.fill
  split
  · subst_vars; simp
  · split
    · subst_vars; simp
    · split
      · subst_vars; simp
      · split
        · subst_vars; simp
        · rw [Memory.read_write_other _ _ (by omega), Memory.read_write_other _ _ (by omega),
            Memory.read_write_other _ _ (by omega), Memory.read_write_other _ _ (by omega)]

/-- What was written is what an index holds. -/
theorem Memory.byteAt_of_read {m : Memory} {a : Nat} {b : Byte} (h : m.read a = some b) : m.byteAt a = b := by
  simp [Memory.byteAt, h]

/-- What nothing has written is free (log entry 5). -/
theorem Memory.byteAt_of_unwritten {m : Memory} {a : Nat} (h : m.read a = none) :
    m.byteAt a = Config.unwrittenByte a := by
  simp [Memory.byteAt, h]

@[simp] theorem Memory.snapshot_fill (m : Memory) (buf : ReadBuffer) : (m.fill buf).snapshot = buf := by
  simp [Memory.snapshot, Memory.byteAt, Memory.read_fill]

theorem Memory.length_write {m : Memory} {a : Nat} {b : Byte} : (m.write a b).length ≥ m.length := by
  induction m with
  | nil => simp [Memory.write]
  | cons c rest ih =>
    obtain ⟨k, v⟩ := c
    unfold Memory.write
    split
    · simp
    · split
      · simp
      · simpa using ih

theorem Memory.length_of_risingFrom {m : Memory} {lo : Nat} (h : Memory.risingFrom lo m = true) :
    m.length ≤ 4 - lo := by
  induction m generalizing lo with
  | nil => simp
  | cons c rest ih =>
    obtain ⟨k, v⟩ := c
    simp only [Memory.risingFrom, Bool.and_eq_true, decide_eq_true_eq] at h
    have := ih h.2
    simp only [List.length_cons]
    omega

@[simp] theorem memRead_two (buf : ReadBuffer) : memRead buf 0 2 = buf.b0.toNat * 256 + buf.b1.toNat := by
  simp [memRead, bigEndian, ReadBuffer.bytes]

@[simp] theorem memRead_three (buf : ReadBuffer) :
    memRead buf 0 3 = (buf.b0.toNat * 256 + buf.b1.toNat) * 256 + buf.b2.toNat := by
  simp [memRead, bigEndian, ReadBuffer.bytes]

end Sys2Proof.Machine
end

