-- ==== Sys2Proof/Laws/Operands.lean ====
section
/-! SUPPORT. What each step of `SMP.DEC` gives, once for every step: the config byte, the raw code, the sign
extension, the scale, and the whole evaluation. -/

namespace Sys2Proof.Machine

theorem gainExp_code (g : Gain) : gainExp g = g.code.toNat := by cases g <;> rfl

theorem multiplier_eq (g : Gain) : multiplier g = 2 ^ gainExp g := by cases g <;> rfl

theorem bits_code (r : Resolution) : bits r = 12 + 2 * r.code.toNat := by cases r <;> rfl

theorem minCode_eq (r : Resolution) : minCode r = -2 ^ (bits r - 1) := by cases r <;> rfl

theorem maxCode_eq (r : Resolution) : maxCode r = 2 ^ (bits r - 1) - 1 := by cases r <;> rfl

/-- The raw code as a number: nothing is lost in the 32 bits. -/
theorem rawCode_toNat (buf : ReadBuffer) (res : Resolution) :
    (rawCode buf res).toNat =
      if nbytes res = 3 then (buf.b0.toNat * 256 + buf.b1.toNat) * 256 + buf.b2.toNat
      else buf.b0.toNat * 256 + buf.b1.toNat := by
  have h0 := buf.b0.isLt
  have h1 := buf.b1.isLt
  have h2 := buf.b2.isLt
  cases res <;> simp only [rawCode, nbytes, memRead_two, memRead_three, BitVec.toNat_ofNat] <;> simp <;> omega

theorem rawCode_lt (buf : ReadBuffer) (res : Resolution) : (rawCode buf res).toNat < 2 ^ 24 := by
  have h0 := buf.b0.isLt
  have h1 := buf.b1.isLt
  have h2 := buf.b2.isLt
  rw [rawCode_toNat]
  split <;> omega

/-- The sign mask picks the sign bit. -/
theorem signMask_test (res : Resolution) (raw : Word32) :
    (raw &&& signMask res ≠ 0#32) ↔ raw.getLsbD (bits res - 1) = true := by
  have key : ∀ k, k < 32 → ((raw &&& BitVec.twoPow 32 k ≠ 0#32) ↔ raw.getLsbD k = true) := by
    intro k hk
    rw [BitVec.and_twoPow]
    cases h : raw.getLsbD k
    · simp
    · simp only [if_true, ne_eq, iff_true]
      intro hz
      have := congrArg (fun x => x.getLsbD k) hz
      simp [hk] at this
  cases res
  · exact key 11 (by decide)
  · exact key 13 (by decide)
  · exact key 15 (by decide)
  · exact key 17 (by decide)

/-- Or-ing the extension mask replaces every bit above the sign bit with ones. -/
theorem or_extMask_toInt (res : Resolution) (raw : Word32) :
    (raw ||| extMask res).toInt = (raw.toNat % 2 ^ bits res : Int) - 2 ^ bits res := by
  have key : ∀ n m, (hnm : m + n = 32) → 0 < m →
      ((raw ||| (BitVec.allOnes m ++ 0#n).cast hnm).toInt = (raw.toNat % 2 ^ n : Int) - 2 ^ n) := by
    intro n m hnm hm
    have happ : raw ||| (BitVec.allOnes m ++ 0#n).cast hnm
        = (BitVec.allOnes m ++ raw.extractLsb' 0 n).cast hnm := by
      apply BitVec.eq_of_getLsbD_eq
      intro i hi
      simp only [BitVec.getLsbD_or, BitVec.getLsbD_cast, BitVec.getLsbD_append, BitVec.getLsbD_zero,
        BitVec.getLsbD_allOnes, BitVec.getLsbD_extractLsb']
      by_cases hin : i < n
      · simp [hin]
      · simp only [hin, if_false]
        simp
        intro _; omega
    have hmod : raw.toNat % 2 ^ n < 2 ^ n := Nat.mod_lt _ (Nat.two_pow_pos n)
    have hnat : (raw ||| (BitVec.allOnes m ++ 0#n).cast hnm).toNat = 2 ^ 32 - 2 ^ n + raw.toNat % 2 ^ n := by
      rw [happ, BitVec.toNat_cast, BitVec.toNat_append, ← Nat.shiftLeft_add_eq_or_of_lt (by simpa using hmod)]
      simp only [BitVec.toNat_allOnes, BitVec.extractLsb'_toNat, Nat.shiftRight_zero, Nat.shiftLeft_eq]
      rw [Nat.sub_mul, ← pow_add, hnm, one_mul]
    have hpow : 2 ^ n ≤ 2 ^ 31 := Nat.pow_le_pow_right (by decide) (by omega)
    rw [BitVec.toInt_eq_toNat_cond, hnat, if_neg (by omega)]
    have hz : ((raw.toNat : Int) % 2 ^ n) = ((raw.toNat % 2 ^ n : Nat) : Int) := by push_cast; rfl
    have hp : ((2 : Int) ^ n) = ((2 ^ n : Nat) : Int) := by push_cast; rfl
    rw [hz, hp]
    generalize raw.toNat % 2 ^ n = x at *
    generalize 2 ^ n = y at *
    omega
  cases res
  · exact key 12 20 rfl (by decide)
  · exact key 14 18 rfl (by decide)
  · exact key 16 16 rfl (by decide)
  · exact key 18 14 rfl (by decide)

/-- The code of a buffer in arithmetic terms: with the sign bit clear, all the raw bits as a non-negative number; with it
set, the bits below it less the sign bit's weight. -/
theorem sampleCode_eq (buf : ReadBuffer) (res : Resolution) :
    sampleCode buf res =
      if (rawCode buf res).toNat.testBit (bits res - 1)
      then ((rawCode buf res).toNat % 2 ^ (bits res - 1) : Int) - 2 ^ (bits res - 1)
      else (rawCode buf res).toNat := by
  unfold sampleCode signExtend
  have hlt := rawCode_lt buf res
  have htest : (rawCode buf res).getLsbD (bits res - 1) = (rawCode buf res).toNat.testBit (bits res - 1) := rfl
  by_cases hs : (rawCode buf res).toNat.testBit (bits res - 1) = true
  · rw [if_pos ((signMask_test _ _).2 (htest.trans hs)), if_pos hs, or_extMask_toInt]
    have hbit := hs
    rw [Nat.testBit_eq_decide_div_mod_eq, decide_eq_true_eq] at hbit
    cases res <;> simp only [bits] at hbit ⊢ <;> omega
  · rw [if_neg (fun h => hs (htest.symm.trans ((signMask_test _ _).1 h))), if_neg hs,
      BitVec.toInt_eq_toNat_cond, if_pos (by omega)]

/-- R127's range of codes. -/
theorem sampleCode_range (buf : ReadBuffer) (res : Resolution) :
    -131072 ≤ sampleCode buf res ∧ sampleCode buf res < 2 ^ 24 := by
  have hlt := rawCode_lt buf res
  have heq := sampleCode_eq buf res
  split at heq
  · rw [heq]
    cases res <;> simp only [bits] <;> omega
  · omega

/-- The evaluation of unit SMP appears at its output port, whatever the result. -/
theorem evalSmpDec_eq (buf : ReadBuffer) (s : State) : evalSmpDec buf s = { s with smpOut := some (smpDec buf) } := by
  unfold evalSmpDec
  cases smpDec buf <;> rfl

end Sys2Proof.Machine
end

