-- ==== Sys2Proof/Laws/State.lean ====
section
/-! SUPPORT. One lemma for each field of `State` under each of the shared updates, so that no later proof unfolds a
record update. -/

namespace Sys2Proof.Machine

section driveEnc

variable (b : Byte) (s : State)

@[simp] theorem driveEnc_encOut : (driveEnc b s).encOut = some b := rfl
@[simp] theorem driveEnc_decOut : (driveEnc b s).decOut = s.decOut := rfl
@[simp] theorem driveEnc_smpOut : (driveEnc b s).smpOut = s.smpOut := rfl
@[simp] theorem driveEnc_buf : (driveEnc b s).buf = s.buf := rfl
@[simp] theorem driveEnc_program : (driveEnc b s).program = s.program := rfl
@[simp] theorem driveEnc_task : (driveEnc b s).task = s.task := rfl
@[simp] theorem driveEnc_sink : (driveEnc b s).sink = s.sink := rfl
@[simp] theorem driveEnc_collected : (driveEnc b s).collected = s.collected := rfl
@[simp] theorem driveEnc_handle : (driveEnc b s).handle = s.handle := rfl
@[simp] theorem driveEnc_trace : (driveEnc b s).trace = s.trace := rfl
@[simp] theorem driveEnc_results : (driveEnc b s).results = s.results := rfl
@[simp] theorem driveEnc_writeReplies : (driveEnc b s).writeReplies = s.writeReplies := rfl
@[simp] theorem driveEnc_readReplies : (driveEnc b s).readReplies = s.readReplies := rfl
@[simp] theorem driveEnc_draws : (driveEnc b s).draws = s.draws := rfl

end driveEnc

section driveDec

variable (c : RegisterConfig) (s : State)

@[simp] theorem driveDec_encOut : (driveDec c s).encOut = s.encOut := rfl
@[simp] theorem driveDec_decOut : (driveDec c s).decOut = some c := rfl
@[simp] theorem driveDec_smpOut : (driveDec c s).smpOut = s.smpOut := rfl
@[simp] theorem driveDec_buf : (driveDec c s).buf = s.buf := rfl
@[simp] theorem driveDec_program : (driveDec c s).program = s.program := rfl
@[simp] theorem driveDec_task : (driveDec c s).task = s.task := rfl
@[simp] theorem driveDec_sink : (driveDec c s).sink = s.sink := rfl
@[simp] theorem driveDec_collected : (driveDec c s).collected = s.collected := rfl
@[simp] theorem driveDec_handle : (driveDec c s).handle = s.handle := rfl
@[simp] theorem driveDec_trace : (driveDec c s).trace = s.trace := rfl
@[simp] theorem driveDec_results : (driveDec c s).results = s.results := rfl
@[simp] theorem driveDec_writeReplies : (driveDec c s).writeReplies = s.writeReplies := rfl
@[simp] theorem driveDec_readReplies : (driveDec c s).readReplies = s.readReplies := rfl
@[simp] theorem driveDec_draws : (driveDec c s).draws = s.draws := rfl

end driveDec

section returnVoltage

variable (v : Voltage) (s : State)

@[simp] theorem returnVoltage_encOut : (returnVoltage v s).encOut = s.encOut := rfl
@[simp] theorem returnVoltage_decOut : (returnVoltage v s).decOut = s.decOut := rfl
@[simp] theorem returnVoltage_smpOut : (returnVoltage v s).smpOut = some (.ok v) := rfl
@[simp] theorem returnVoltage_buf : (returnVoltage v s).buf = s.buf := rfl
@[simp] theorem returnVoltage_program : (returnVoltage v s).program = s.program := rfl
@[simp] theorem returnVoltage_task : (returnVoltage v s).task = s.task := rfl
@[simp] theorem returnVoltage_sink : (returnVoltage v s).sink = s.sink := rfl
@[simp] theorem returnVoltage_collected : (returnVoltage v s).collected = s.collected := rfl
@[simp] theorem returnVoltage_handle : (returnVoltage v s).handle = s.handle := rfl
@[simp] theorem returnVoltage_trace : (returnVoltage v s).trace = s.trace := rfl
@[simp] theorem returnVoltage_results : (returnVoltage v s).results = s.results := rfl
@[simp] theorem returnVoltage_writeReplies : (returnVoltage v s).writeReplies = s.writeReplies := rfl
@[simp] theorem returnVoltage_readReplies : (returnVoltage v s).readReplies = s.readReplies := rfl
@[simp] theorem returnVoltage_draws : (returnVoltage v s).draws = s.draws := rfl

end returnVoltage

section raise

variable (e : SmpError) (s : State)

@[simp] theorem raise_encOut : (raise e s).encOut = s.encOut := rfl
@[simp] theorem raise_decOut : (raise e s).decOut = s.decOut := rfl
@[simp] theorem raise_smpOut : (raise e s).smpOut = some (.raised e) := rfl
@[simp] theorem raise_buf : (raise e s).buf = s.buf := rfl
@[simp] theorem raise_program : (raise e s).program = s.program := rfl
@[simp] theorem raise_task : (raise e s).task = s.task := rfl
@[simp] theorem raise_sink : (raise e s).sink = s.sink := rfl
@[simp] theorem raise_collected : (raise e s).collected = s.collected := rfl
@[simp] theorem raise_handle : (raise e s).handle = s.handle := rfl
@[simp] theorem raise_trace : (raise e s).trace = s.trace := rfl
@[simp] theorem raise_results : (raise e s).results = s.results := rfl
@[simp] theorem raise_writeReplies : (raise e s).writeReplies = s.writeReplies := rfl
@[simp] theorem raise_readReplies : (raise e s).readReplies = s.readReplies := rfl
@[simp] theorem raise_draws : (raise e s).draws = s.draws := rfl

end raise

section deliver

variable (r : CallResult) (s : State)

@[simp] theorem deliver_encOut : (deliver r s).encOut = s.encOut := rfl
@[simp] theorem deliver_decOut : (deliver r s).decOut = s.decOut := rfl
@[simp] theorem deliver_smpOut : (deliver r s).smpOut = s.smpOut := rfl
@[simp] theorem deliver_buf : (deliver r s).buf = s.buf := rfl
@[simp] theorem deliver_program : (deliver r s).program = s.program := rfl
@[simp] theorem deliver_task : (deliver r s).task = s.task := rfl
@[simp] theorem deliver_sink : (deliver r s).sink = s.sink := rfl
@[simp] theorem deliver_collected : (deliver r s).collected = s.collected := rfl
@[simp] theorem deliver_handle : (deliver r s).handle = s.handle := rfl
@[simp] theorem deliver_trace : (deliver r s).trace = s.trace := rfl
@[simp] theorem deliver_results : (deliver r s).results = s.results ++ [⟨s.sink, r⟩] := rfl
@[simp] theorem deliver_writeReplies : (deliver r s).writeReplies = s.writeReplies := rfl
@[simp] theorem deliver_readReplies : (deliver r s).readReplies = s.readReplies := rfl
@[simp] theorem deliver_draws : (deliver r s).draws = s.draws := rfl

end deliver

section failCall

variable (e : DriverError) (s : State)

@[simp] theorem failCall_encOut : (failCall e s).encOut = s.encOut := rfl
@[simp] theorem failCall_decOut : (failCall e s).decOut = s.decOut := rfl
@[simp] theorem failCall_smpOut : (failCall e s).smpOut = s.smpOut := rfl
@[simp] theorem failCall_buf : (failCall e s).buf = s.buf := rfl
@[simp] theorem failCall_program : (failCall e s).program = s.program := rfl
@[simp] theorem failCall_task : (failCall e s).task = [] := rfl
@[simp] theorem failCall_sink : (failCall e s).sink = s.sink := rfl
@[simp] theorem failCall_collected : (failCall e s).collected = [] := rfl
@[simp] theorem failCall_handle : (failCall e s).handle = s.handle := rfl
@[simp] theorem failCall_trace : (failCall e s).trace = s.trace := rfl
@[simp] theorem failCall_results : (failCall e s).results = s.results ++ [⟨s.sink, .error e⟩] := rfl
@[simp] theorem failCall_writeReplies : (failCall e s).writeReplies = s.writeReplies := rfl
@[simp] theorem failCall_readReplies : (failCall e s).readReplies = s.readReplies := rfl
@[simp] theorem failCall_draws : (failCall e s).draws = s.draws := rfl

end failCall

section advance

variable (s : State)

@[simp] theorem advance_task : (advance s).task = s.task.tail := by
  unfold advance; split <;> simp_all

@[simp] theorem advance_program : (advance s).program = if s.task = [] then s.program.tail else s.program := by
  unfold advance; split <;> simp_all

@[simp] theorem advance_sink :
    (advance s).sink = if s.task = [] ∧ s.program ≠ [] then .caller else s.sink := by
  unfold advance; split <;> simp_all

@[simp] theorem advance_encOut : (advance s).encOut = s.encOut := by
  unfold advance; split <;> rfl

@[simp] theorem advance_decOut : (advance s).decOut = s.decOut := by
  unfold advance; split <;> rfl

@[simp] theorem advance_smpOut : (advance s).smpOut = s.smpOut := by
  unfold advance; split <;> rfl

@[simp] theorem advance_buf : (advance s).buf = s.buf := by
  unfold advance; split <;> rfl

@[simp] theorem advance_collected : (advance s).collected = s.collected := by
  unfold advance; split <;> rfl

@[simp] theorem advance_handle : (advance s).handle = s.handle := by
  unfold advance; split <;> rfl

@[simp] theorem advance_trace : (advance s).trace = s.trace := by
  unfold advance; split <;> rfl

@[simp] theorem advance_results : (advance s).results = s.results := by
  unfold advance; split <;> rfl

@[simp] theorem advance_writeReplies : (advance s).writeReplies = s.writeReplies := by
  unfold advance; split <;> rfl

@[simp] theorem advance_readReplies : (advance s).readReplies = s.readReplies := by
  unfold advance; split <;> rfl

@[simp] theorem advance_draws : (advance s).draws = s.draws := by
  unfold advance; split <;> rfl

end advance

end Sys2Proof.Machine
end

