-- ==== Sys2Proof/Laws/Exec.lean ====
section
/-! SUPPORT. Everything an instruction can do, said once: each constructor's next state, and that `exec` always answers
one which differs from the old at one output port. -/

namespace Sys2Proof.Machine

section forms

variable (s : State) (r : Bool) (c : Channel) (m : SampleMode) (res : Resolution) (g : Gain) (t : Byte)

theorem exec_cfgEnc :
    exec (.cfgEnc r c m res g) s = .next { s with encOut := some (packConfig ⟨r, c, m, res, g⟩) } := rfl

theorem exec_cfgDec (b : Byte) : exec (.cfgDec b) s = .next { s with decOut := some (unpackConfig b) } := rfl

theorem exec_smpDecW3 (d : BitVec 24) : exec (.smpDecW3 d r c m g) s =
    .next { s with smpOut := some (smpDec (layoutW3 d ⟨r, c, m, .r18, g⟩)) } :=
  congrArg Host.Outcome.next (evalSmpDec_eq _ s)

theorem exec_smpDecW2R12 (d : BitVec 16) : exec (.smpDecW2R12 d r c m g t) s =
    .next { s with smpOut := some (smpDec (layoutW2 d ⟨r, c, m, .r12, g⟩ t)) } :=
  congrArg Host.Outcome.next (evalSmpDec_eq _ s)

theorem exec_smpDecW2R14 (d : BitVec 16) : exec (.smpDecW2R14 d r c m g t) s =
    .next { s with smpOut := some (smpDec (layoutW2 d ⟨r, c, m, .r14, g⟩ t)) } :=
  congrArg Host.Outcome.next (evalSmpDec_eq _ s)

theorem exec_smpDecW2R16 (d : BitVec 16) : exec (.smpDecW2R16 d r c m g t) s =
    .next { s with smpOut := some (smpDec (layoutW2 d ⟨r, c, m, .r16, g⟩ t)) } :=
  congrArg Host.Outcome.next (evalSmpDec_eq _ s)

theorem exec_smpDecW2R18 (d : BitVec 16) : exec (.smpDecW2R18 d r c m g t) s =
    .next { s with smpOut := some (smpDec (layoutW2 d ⟨r, c, m, .r18, g⟩ t)) } :=
  congrArg Host.Outcome.next (evalSmpDec_eq _ s)

end forms

/-- The one inversion of `exec`: an instruction changes one output port, and which one its unit says. -/
theorem exec_cases (i : Instr) (s : State) :
    (i.blockUnit = .enc ∧ ∃ b, exec i s = .next { s with encOut := some b }) ∨
    (i.blockUnit = .dec ∧ ∃ c, exec i s = .next { s with decOut := some c }) ∨
    (i.blockUnit = .smp ∧ ∃ buf, exec i s = .next { s with smpOut := some (smpDec buf) }) := by
  cases i
  · exact .inl ⟨rfl, _, rfl⟩
  · exact .inr (.inl ⟨rfl, _, rfl⟩)
  · exact .inr (.inr ⟨rfl, _, exec_smpDecW3 ..⟩)
  · exact .inr (.inr ⟨rfl, _, exec_smpDecW2R12 ..⟩)
  · exact .inr (.inr ⟨rfl, _, exec_smpDecW2R14 ..⟩)
  · exact .inr (.inr ⟨rfl, _, exec_smpDecW2R16 ..⟩)
  · exact .inr (.inr ⟨rfl, _, exec_smpDecW2R18 ..⟩)

/-! The bytes of a concatenation. -/

theorem extract3_hi (a b c : Byte) : (a ++ b ++ c).extractLsb' 16 8 = a := by
  apply BitVec.eq_of_getLsbD_eq
  intro i hi
  have h1 : ¬ 16 + i < 8 := by omega
  have h2 : ¬ 16 + i - 8 < 8 := by omega
  simp only [BitVec.getLsbD_extractLsb', BitVec.getLsbD_append, hi, h1, h2, decide_true, Bool.true_and, if_false]
  congr 1
  omega

theorem extract3_mid (a b c : Byte) : (a ++ b ++ c).extractLsb' 8 8 = b := by
  apply BitVec.eq_of_getLsbD_eq
  intro i hi
  have h1 : ¬ 8 + i < 8 := by omega
  have h2 : 8 + i - 8 < 8 := by omega
  simp only [BitVec.getLsbD_extractLsb', BitVec.getLsbD_append, hi, h1, h2, decide_true, Bool.true_and, if_false, if_true]
  congr 1
  omega

theorem extract3_lo (a b c : Byte) : (a ++ b ++ c).extractLsb' 0 8 = c := by
  apply BitVec.eq_of_getLsbD_eq
  intro i hi
  simp only [BitVec.getLsbD_extractLsb', BitVec.getLsbD_append, hi, decide_true, Bool.true_and, Nat.zero_add, if_true]

theorem extract2_hi (a b : Byte) : (a ++ b).extractLsb' 8 8 = a := by
  apply BitVec.eq_of_getLsbD_eq
  intro i hi
  have h1 : ¬ 8 + i < 8 := by omega
  simp only [BitVec.getLsbD_extractLsb', BitVec.getLsbD_append, hi, h1, decide_true, Bool.true_and, if_false]
  congr 1
  omega

theorem extract2_lo (a b : Byte) : (a ++ b).extractLsb' 0 8 = b := by
  apply BitVec.eq_of_getLsbD_eq
  intro i hi
  simp only [BitVec.getLsbD_extractLsb', BitVec.getLsbD_append, hi, decide_true, Bool.true_and, Nat.zero_add, if_true]

/-- Layout W3 is laid out again from the bytes it was read from. -/
theorem layoutW3_decode (buf : ReadBuffer) (h : selectsW3 buf.b3 = true) :
    layoutW3 (buf.b0 ++ buf.b1 ++ buf.b2)
      ⟨(unpackConfig buf.b3).ready, (unpackConfig buf.b3).channel, (unpackConfig buf.b3).sampleMode, .r18,
        (unpackConfig buf.b3).gain⟩ = buf := by
  have hres : (unpackConfig buf.b3).resolution = .r18 := by simpa [selectsW3_iff_r18] using h
  have hp := packConfig_unpackConfig buf.b3
  rw [show unpackConfig buf.b3 = ⟨(unpackConfig buf.b3).ready, (unpackConfig buf.b3).channel,
    (unpackConfig buf.b3).sampleMode, (unpackConfig buf.b3).resolution, (unpackConfig buf.b3).gain⟩ from rfl, hres] at hp
  simp only [layoutW3, hp]
  exact congrArg₂ (fun f x => f x)
    (congrArg₂ (fun x y => fun z => ReadBuffer.mk x y z buf.b3) (extract3_hi ..) (extract3_mid ..)) (extract3_lo ..)

/-- So is layout W2. -/
theorem layoutW2_decode (buf : ReadBuffer) :
    layoutW2 (buf.b0 ++ buf.b1) (unpackConfig buf.b2) buf.b3 = buf := by
  simp only [layoutW2, packConfig_unpackConfig]
  exact congrArg₂ (fun x y => ReadBuffer.mk x y buf.b2 buf.b3) (extract2_hi ..) (extract2_lo ..)

/-- Whatever form a buffer selects, running it is the whole `SMP.DEC` of R120 on that buffer. -/
theorem exec_decodeBuffer (buf : ReadBuffer) (s : State) :
    exec (decodeBuffer buf) s = .next { s with smpOut := some (smpDec buf) } := by
  unfold decodeBuffer
  split
  · rename_i h
    rw [exec_smpDecW3, layoutW3_decode buf h]
  · have key : ∀ res, (unpackConfig buf.b2).resolution = res →
        layoutW2 (buf.b0 ++ buf.b1) ⟨(unpackConfig buf.b2).ready, (unpackConfig buf.b2).channel,
          (unpackConfig buf.b2).sampleMode, res, (unpackConfig buf.b2).gain⟩ buf.b3 = buf := by
      intro res h
      subst h
      exact layoutW2_decode buf
    cases hres : (unpackConfig buf.b2).resolution <;> simp only [hres]
    · rw [exec_smpDecW2R12, key _ hres]
    · rw [exec_smpDecW2R14, key _ hres]
    · rw [exec_smpDecW2R16, key _ hres]
    · rw [exec_smpDecW2R18, key _ hres]

end Sys2Proof.Machine
end

