-- ==== Sys2Proof/Laws/PerInstr.lean ====
section
/-! SUPPORT. Facts about every instruction, one lemma for each constructor: how many bytes its row has (R81, R82). -/

namespace Sys2Proof.Laws.WordLength

/-- A row of the codec has one byte, a row of the sample decoder four. -/
def Statement (i : Instr) : Prop :=
  (encode i).length = if i.blockUnit = .smp then 4 else 1

theorem cfgEnc (r : Bool) (c : Channel) (m : SampleMode) (res : Resolution) (g : Gain) :
    Statement (.cfgEnc r c m res g) := rfl

theorem cfgDec (b : Byte) : Statement (.cfgDec b) := rfl

theorem smpDecW3 (d : BitVec 24) (r : Bool) (c : Channel) (m : SampleMode) (g : Gain) :
    Statement (.smpDecW3 d r c m g) := rfl

theorem smpDecW2R12 (d : BitVec 16) (r : Bool) (c : Channel) (m : SampleMode) (g : Gain) (t : Byte) :
    Statement (.smpDecW2R12 d r c m g t) := rfl

theorem smpDecW2R14 (d : BitVec 16) (r : Bool) (c : Channel) (m : SampleMode) (g : Gain) (t : Byte) :
    Statement (.smpDecW2R14 d r c m g t) := rfl

theorem smpDecW2R16 (d : BitVec 16) (r : Bool) (c : Channel) (m : SampleMode) (g : Gain) (t : Byte) :
    Statement (.smpDecW2R16 d r c m g t) := rfl

theorem smpDecW2R18 (d : BitVec 16) (r : Bool) (c : Channel) (m : SampleMode) (g : Gain) (t : Byte) :
    Statement (.smpDecW2R18 d r c m g t) := rfl

end Sys2Proof.Laws.WordLength
end

