-- ==== Sys2Proof/Laws/Step.lean ====
section
/-! SUPPORT. What a step can do, said once; and what each operation of the environment does on the answers that are
fixed from outside. -/

namespace Sys2Proof.Machine

/-- The inversion of `step`. -/
theorem step_cases {s t : State} (h : step s = .next t) :
    (∃ i, fetch s = .instr i ∧ exec i (advance s) = .next t) ∨
    (∃ a, fetch s = .act a ∧ runAction a (advance s) = .next t) ∨
    (∃ b, fetch s = .book b ∧ runBook b (advance s) = .next t) ∨
    (∃ c, fetch s = .call c ∧ runCall c (advance s) = .next t) ∨
    (fetch s = .idle ∧ t = s) := by
  unfold step at h
  cases hf : fetch s with
  | instr i => rw [hf] at h; exact .inl ⟨i, rfl, h⟩
  | act a => rw [hf] at h; exact .inr (.inl ⟨a, rfl, h⟩)
  | book b => rw [hf] at h; exact .inr (.inr (.inl ⟨b, rfl, h⟩))
  | call c => rw [hf] at h; exact .inr (.inr (.inr (.inl ⟨c, rfl, h⟩)))
  | idle => rw [hf] at h; cases h; exact .inr (.inr (.inr (.inr ⟨rfl, rfl⟩)))

section fetch

variable {s : State}

theorem fetch_task_enc {cfg : RegisterConfig} {rest : List Micro} (h : s.task = .drive (.enc cfg) :: rest) :
    fetch s = .instr (encInstr cfg) := by
  simp [fetch, h, fetchDrive]

theorem fetch_task_smp {rest : List Micro} (h : s.task = .drive .smp :: rest) :
    fetch s = .instr (decodeBuffer s.buf.snapshot) := by
  simp [fetch, h, fetchDrive]

theorem fetch_task_act {a : Action} {rest : List Micro} (h : s.task = .act a :: rest) : fetch s = .act a := by
  simp [fetch, h]

theorem fetch_task_book {b : Book} {rest : List Micro} (h : s.task = .book b :: rest) : fetch s = .book b := by
  simp [fetch, h]

theorem fetch_program_call {c : Call} {rest : List Op} (ht : s.task = []) (hp : s.program = .call c :: rest) :
    fetch s = .call c := by
  simp [fetch, ht, hp]

theorem advance_of_task {m : Micro} {rest : List Micro} (h : s.task = m :: rest) :
    advance s = { s with task := rest } := by
  simp [advance, h]

theorem advance_of_program {o : Op} {rest : List Op} (ht : s.task = []) (hp : s.program = o :: rest) :
    advance s = { s with program := rest, sink := .caller } := by
  simp [advance, ht, hp]

/-- Taking a request leaves all but the requests and the receiver. -/
theorem takes_frame {m : Micro} {s' : State} (h : s.takes m s') :
    s' = { s with task := s'.task, program := s'.program, sink := s'.sink } := by
  rcases h with ⟨rest, _, rfl⟩ | ⟨o, rest, _, _, _, rfl⟩ <;> rfl

/-- What stands next is what `fetch` reads, and `advance` takes it. -/
theorem fetch_of_takes {m : Micro} {s' : State} (h : s.takes m s') :
    advance s = s' ∧ fetch s = match m with
      | .drive d => fetchDrive d s.buf
      | .act a => .act a
      | .book b => .book b := by
  rcases h with ⟨rest, ht, rfl⟩ | ⟨o, rest, ht, hp, ho, rfl⟩
  · exact ⟨advance_of_task ht, by cases m <;> simp [fetch, ht]⟩
  · refine ⟨advance_of_program ht hp, ?_⟩
    cases o <;> simp only [Op.micro?, Option.some.injEq, reduceCtorEq] at ho <;> subst ho <;> simp [fetch, ht, hp]

theorem step_of_takes_act {a : Action} {s' : State} (h : s.takes (.act a) s') : step s = runAction a s' := by
  simp [step, fetch_of_takes h]

theorem step_of_takes_enc {cfg : RegisterConfig} {s' : State} (h : s.takes (.drive (.enc cfg)) s') :
    step s = exec (encInstr cfg) s' := by
  simp [step, fetch_of_takes h, fetchDrive]

theorem step_of_takes_dec {b : Byte} {s' : State} (h : s.takes (.drive (.dec b)) s') :
    step s = exec (.cfgDec b) s' := by
  simp [step, fetch_of_takes h, fetchDrive]

theorem step_of_takes_smp {s' : State} (h : s.takes (.drive .smp) s') :
    step s = exec (decodeBuffer s.buf.snapshot) s' := by
  simp [step, fetch_of_takes h, fetchDrive]

end fetch

/-- R54, D8: all that handing over a buffer does. -/
theorem runHand_eq (bytes : List Byte) (s : State) :
    (bytes.length ≠ 4 → runHand bytes s = .refused (.bufferLength bytes.length)) ∧
    (∀ b : ReadBuffer, bytes = b.bytes → runHand bytes s = .next { s with buf := s.buf.fill b }) := by
  constructor
  · intro h
    unfold runHand
    split
    · exact absurd rfl h
    · rfl
  · rintro b rfl
    rfl

/-! ## The operations of the environment on fixed answers -/

section answers

variable {s : State} {h : Handle}

theorem runBusWrite_accepted {ws : List WriteReply} (b : Byte) (hh : s.handle = some h)
    (hw : s.writeReplies = .accepted :: ws) :
    runBusWrite b s = .next { s with trace := s.trace ++ [.write h.address b], writeReplies := ws } := by
  simp [runBusWrite, hh, drawWrite, hw]

theorem runBusWrite_failed {ws : List WriteReply} {c : BusCause} (b : Byte) (hh : s.handle = some h)
    (hw : s.writeReplies = .failed c :: ws) :
    runBusWrite b s = .next (failCall (.busError c)
      { s with trace := s.trace ++ [.write h.address b], writeReplies := ws }) := by
  simp [runBusWrite, hh, drawWrite, hw]

theorem runBusRead_filled {rs : List ReadReply} {b0 b1 b2 b3 : Byte} (hh : s.handle = some h)
    (hr : s.readReplies = .filled (b0, b1, b2, b3) :: rs) :
    runBusRead s = .next { s with
      trace := s.trace ++ [.read h.address], readReplies := rs, buf := s.buf.fill ⟨b0, b1, b2, b3⟩ } := by
  simp [runBusRead, hh, drawRead, hr]

theorem runBusRead_failed {rs : List ReadReply} {c : BusCause} (hh : s.handle = some h)
    (hr : s.readReplies = .failed c :: rs) :
    runBusRead s = .next (failCall (.busError c)
      { s with
        trace := s.trace ++ [.read h.address], readReplies := rs, draws := s.draws + 1,
        buf := s.buf.fill (Config.failedReadBuffer s.draws) }) := by
  simp [runBusRead, hh, drawRead, hr]

/-- The bus's answer, fixed from outside or free, is what is drawn. -/
theorem drawWrite_of_answers {r : WriteReply} {s' : State} (h : s.answersWrite r s') : drawWrite s = (r, s') := by
  rcases h with ⟨ws, hw, rfl⟩ | ⟨hw, rfl, rfl⟩ <;> simp [drawWrite, hw]

theorem drawRead_of_answers {r : ReadReply} {s' : State} (h : s.answersRead r s') : drawRead s = (r, s') := by
  rcases h with ⟨rs, hr, rfl⟩ | ⟨hr, rfl, rfl⟩ <;> simp [drawRead, hr]

/-- What a bus write does with any answer, fixed from outside or free. -/
theorem runBusWrite_of_answers {r : WriteReply} {s' : State} (b : Byte) (hh : s.handle = some h) :
    s.answersWrite r s' → runBusWrite b s = .next (match r with
      | .accepted => { s' with trace := s.trace ++ [.write h.address b] }
      | .failed c => failCall (.busError c) { s' with trace := s.trace ++ [.write h.address b] }) := by
  intro ha
  rcases ha with ⟨ws, hw, rfl⟩ | ⟨hw, hf, rfl⟩
  · cases r <;> simp [runBusWrite, hh, drawWrite, hw]
  · cases r <;> simp [runBusWrite, hh, drawWrite, hw, hf]

/-- What a bus read does with any answer, fixed from outside or free. -/
theorem runBusRead_of_answers {r : ReadReply} {s' : State} (hh : s.handle = some h) :
    s.answersRead r s' → runBusRead s = .next (match r with
      | .filled (b0, b1, b2, b3) =>
        { s' with trace := s.trace ++ [.read h.address], buf := s.buf.fill ⟨b0, b1, b2, b3⟩ }
      | .failed c => failCall (.busError c)
        { s' with
          trace := s.trace ++ [.read h.address], draws := s'.draws + 1
          buf := s.buf.fill (Config.failedReadBuffer s'.draws) }) := by
  intro ha
  rcases ha with ⟨rs, hr, rfl⟩ | ⟨hr, hf, rfl⟩
  · cases r <;> simp [runBusRead, hh, drawRead, hr]
  · cases r <;> simp [runBusRead, hh, drawRead, hr, hf]

/-- An answer of the bus leaves all but the answers to come and the count of free values. -/
theorem answersWrite_frame {r : WriteReply} {s' : State} (ha : s.answersWrite r s') :
    s' = { s with writeReplies := s'.writeReplies, draws := s'.draws } := by
  rcases ha with ⟨ws, _, rfl⟩ | ⟨_, _, rfl⟩ <;> rfl

theorem answersRead_frame {r : ReadReply} {s' : State} (ha : s.answersRead r s') :
    s' = { s with readReplies := s'.readReplies, draws := s'.draws } := by
  rcases ha with ⟨rs, _, rfl⟩ | ⟨_, _, rfl⟩ <;> rfl

/-- A draw on the bus changes only the answers left and the count of free values. -/
theorem drawWrite_frame (s : State) : ∃ ws n, (drawWrite s).2 = { s with writeReplies := ws, draws := n } := by
  unfold drawWrite
  split
  · exact ⟨_, _, rfl⟩
  · exact ⟨_, _, rfl⟩

theorem drawRead_frame (s : State) : ∃ rs n, (drawRead s).2 = { s with readReplies := rs, draws := n } := by
  unfold drawRead
  split
  · exact ⟨_, _, rfl⟩
  · exact ⟨_, _, rfl⟩

end answers

/-- No measurement sequence holds a piece of a `configure`. -/
theorem stageShot_not_mem_measureSequence (m : ModeState) (p : Shot) :
    Micro.book (.stageShot p) ∉ measureSequence m ∧ Micro.book (.storeShot p) ∉ measureSequence m := by
  have hm : ∀ ps, Micro.book (.stageShot p) ∉ multiSequence ps ∧ Micro.book (.storeShot p) ∉ multiSequence ps := by
    intro ps
    induction ps with
    | nil => simp [multiSequence]
    | cons q qs ih => simp [multiSequence, attempt, startSequence, sampleSequence, ih]
  cases m with
  | oneShot q => simp [measureSequence, attempt, startSequence, sampleSequence]
  | continuous q init => cases init <;> simp [measureSequence, startSequence, sampleSequence]
  | multiShot ps => exact hm ps

/-- A sequence that holds no decode and asks for no sample may be passed over. -/
theorem decodesFirst_append (xs ys : List Micro) (h : decodesFirst xs = true) (hy : decodesFirst ys = true) :
    decodesFirst (xs ++ ys) = true := by
  induction xs with
  | nil => exact hy
  | cons x xs ih =>
    revert h
    cases x with
    | drive d => cases d <;> simp [decodesFirst] <;> exact ih
    | act a => simpa [decodesFirst] using ih
    | book b => cases b <;> simp [decodesFirst] <;> exact ih

/-- MultiShot's pairs, when there are any at all, are those of its Configurations, one for one (R170). -/
theorem shotsOf_eq_some_iff {sts : List Setup} {ps : List Shot} :
    shotsOf sts = some ps ↔ sts.map (shotOf .oneShot) = ps.map some := by
  induction sts generalizing ps with
  | nil => cases ps <;> simp [shotsOf]
  | cons st rest ih =>
    cases h1 : shotOf .oneShot st with
    | none => cases ps <;> simp [shotsOf, h1]
    | some p =>
      cases ps with
      | nil => cases h2 : shotsOf rest <;> simp [shotsOf, h1, h2]
      | cons q qs =>
        simp only [shotsOf, h1, List.map_cons, List.cons.injEq, ← ih]
        cases shotsOf rest <;> simp

theorem length_of_shotsOf {sts : List Setup} {ps : List Shot} (h : shotsOf sts = some ps) : ps.length = sts.length := by
  simpa using (congrArg List.length (shotsOf_eq_some_iff.1 h)).symm

/-- Everything that `new` can do when it answers a next state. -/
theorem runNew_next {address : BusAddress} {setup : ModeSetup} {s t : State} (h : runNew address setup s = .next t) :
    s.handle = none ∧ setup ≠ .multiShot [] ∧
      ∃ m, modeOf setup = some m ∧ t = { s with handle := some ⟨address, m⟩ } := by
  unfold runNew at h
  split at h
  · cases h
  · cases h
  · rename_i hh hne
    split at h <;> cases h
    exact ⟨hh, by rintro rfl; exact hne rfl, _, ‹_›, rfl⟩

/-- An abandoned call does nothing that the whole call would not. -/
theorem mem_of_mem_abandonAfter {x : Micro} {k : Nat} {ms : List Micro} (h : x ∈ abandonAfter k ms) : x ∈ ms := by
  induction ms generalizing k with
  | nil => simp [abandonAfter] at h
  | cons m rest ih =>
    cases hs : isSuspension m with
    | false =>
      simp only [abandonAfter, hs, Bool.false_eq_true, if_false] at h
      exact List.mem_cons.2 ((List.mem_cons.1 h).imp_right ih)
    | true =>
      cases k with
      | zero => simp [abandonAfter, hs] at h
      | succ k =>
        simp only [abandonAfter, hs, if_true] at h
        exact List.mem_cons.2 ((List.mem_cons.1 h).imp_right ih)

end Sys2Proof.Machine
end

