-- ==== Sys2Proof/Laws/Runs.lean ====
section
/-! SUPPORT. Runs of several steps: one lemma for each step that a protocol takes, and one for each half of an attempt
(R166). -/

namespace Sys2Proof.Machine
/-- `k` steps of the machine, over the machine's own type of states. -/
def steps : Nat → State → Host.Outcome State Fault Refusal
  | 0, s => .next s
  | k + 1, s =>
    match step s with
    | .next t => steps k t
    | .fault f => .fault f
    | .refused r => .refused r

/-- The host's run is that. -/
theorem core_run_eq (k : Nat) (s : State) : Host.Core.run Sys2Proof.core k s = steps k s := by
  induction k generalizing s with
  | zero => rfl
  | succ k ih =>
    have h : ∀ t : State, Host.Core.run Sys2Proof.core k t = steps k t := ih
    cases hs : step s with
    | next t =>
      have hs' : Sys2Proof.core.step s = .next t := hs
      simpa [Host.Core.run, hs', steps, hs] using h t
    | fault f =>
      have hs' : Sys2Proof.core.step s = .fault f := hs
      simp [Host.Core.run, hs', steps, hs]; rfl
    | refused r =>
      have hs' : Sys2Proof.core.step s = .refused r := hs
      simp [Host.Core.run, hs', steps, hs]; rfl

theorem steps_zero (s : State) : steps 0 s = .next s := rfl

/-- One step, then the rest of the run. -/
theorem steps_succ {k : Nat} {s t : State} (h : step s = .next t) : steps (k + 1) s = steps k t := by
  simp [steps, h]

section oneStep
variable {s : State}

theorem step_call {c : Call} {rest : List Op} (ht : s.task = []) (hp : s.program = .call c :: rest) :
    step s = runCall c { s with program := rest, sink := .caller } := by
  simp [step, fetch_program_call ht hp, advance_of_program ht hp]

theorem step_measure {h : Handle} {rest : List Op} (ht : s.task = []) (hp : s.program = .call .measure :: rest)
    (hh : s.handle = some h) :
    step s = .next { s with
      program := rest, sink := .caller, task := measureSequence h.mode, collected := [] } := by
  simp [step_call ht hp, runCall, beginMeasure, hh]

theorem step_pull {h : Handle} {rest : List Op} (ht : s.task = []) (hp : s.program = .call .pull :: rest)
    (hh : s.handle = some h) :
    step s = .next { s with
      program := rest, sink := .stream, task := measureSequence h.mode, collected := [] } := by
  simp [step_call ht hp, runCall, beginMeasure, hh]

theorem step_book {b : Book} {rest : List Micro} (ht : s.task = .book b :: rest) :
    step s = runBook b { s with task := rest } := by
  simp [step, fetch_task_book ht, advance_of_task ht]

theorem step_act {a : Action} {rest : List Micro} (ht : s.task = .act a :: rest) :
    step s = runAction a { s with task := rest } := by
  simp [step, fetch_task_act ht, advance_of_task ht]

theorem step_enc {cfg : RegisterConfig} {rest : List Micro} (ht : s.task = .drive (.enc cfg) :: rest) :
    step s = .next { s with task := rest, encOut := some (packConfig cfg) } := by
  simp [step, fetch_task_enc ht, advance_of_task ht, encInstr, exec_cfgEnc]

theorem step_smp {rest : List Micro} {m : Memory} {b : ReadBuffer} (ht : s.task = .drive .smp :: rest)
    (hb : s.buf = m.fill b) : step s = .next { s with task := rest, smpOut := some (smpDec b) } := by
  simp [step, fetch_task_smp ht, hb, advance_of_task ht, exec_decodeBuffer]

theorem step_delay {us : Micros} {rest : List Micro} (ht : s.task = .act (.delay us) :: rest) :
    step s = .next { s with task := rest, trace := s.trace ++ [.delay us] } := by
  rw [step_act ht]; rfl

theorem step_busWrite_accepted {h : Handle} {b : Byte} {rest : List Micro} {ws : List WriteReply}
    (ht : s.task = .act (.busWrite b) :: rest) (hh : s.handle = some h) (hw : s.writeReplies = .accepted :: ws) :
    step s = .next { s with task := rest, writeReplies := ws, trace := s.trace ++ [.write h.address b] } := by
  rw [step_act ht]
  exact runBusWrite_accepted (s := { s with task := rest }) b hh hw

theorem step_busRead_filled {h : Handle} {b : ReadBuffer} {rest : List Micro} {rs : List ReadReply}
    (ht : s.task = .act .busRead :: rest) (hh : s.handle = some h)
    (hr : s.readReplies = .filled (b.b0, b.b1, b.b2, b.b3) :: rs) :
    step s = .next { s with
      task := rest, readReplies := rs, trace := s.trace ++ [.read h.address], buf := s.buf.fill b } := by
  rw [step_act ht]
  exact runBusRead_filled (s := { s with task := rest }) hh hr

theorem step_markRunning {h : Handle} {rest : List Micro} (ht : s.task = .book .markRunning :: rest)
    (hh : s.handle = some h) :
    step s = .next { s with task := rest, handle := some { h with mode := setRunning h.mode } } := by
  simp [step_book ht, runBook, runMarkRunning, hh]

/-- Log entry 9: the pair is stored before the write, or not yet. -/
theorem step_stageShot {h : Handle} {p : Shot} {rest : List Micro} (ht : s.task = .book (.stageShot p) :: rest)
    (hh : s.handle = some h) :
    step s = .next { s with
      task := rest, draws := s.draws + 1
      handle := some { h with
        mode := withShot (fun old => if Config.configureStoresFirst s.draws then p else old) h.mode } } := by
  simp [step_book ht, runBook, runStageShot, hh]

theorem step_storeShot {h : Handle} {p : Shot} {rest : List Micro} (ht : s.task = .book (.storeShot p) :: rest)
    (hh : s.handle = some h) :
    step s = .next { s with
      task := rest, handle := some { h with mode := withShot (fun _ => p) h.mode }
      results := s.results ++ [⟨s.sink, .configured⟩] } := by
  simp [step_book ht, runBook, runStoreShot, hh, deliver]

theorem step_collect_ok {v : Voltage} {rest : List Micro} (ht : s.task = .book .collect :: rest)
    (hs : s.smpOut = some (.ok v)) :
    step s = .next { s with task := rest, collected := s.collected ++ [v] } := by
  simp [step_book ht, runBook, runCollect, hs]

theorem step_collect_raised {e : SmpError} {rest : List Micro} (ht : s.task = .book .collect :: rest)
    (hs : s.smpOut = some (.raised e)) :
    step s = .next { s with
      task := [], collected := [], results := s.results ++ [⟨s.sink, .error (.sample e)⟩] } := by
  simp [step_book ht, runBook, runCollect, hs, failCall, deliver]

/-- The call's result from the block's (R207). -/
def callResult : SmpResult → CallResult
  | .ok v => .voltage v
  | .raised e => .error (.sample e)

theorem step_returnSample {r : SmpResult} (ht : s.task = [.book .returnSample]) (hs : s.smpOut = some r)
    (hc : s.collected = []) :
    step s = .next { s with task := [], results := s.results ++ [⟨s.sink, callResult r⟩] } := by
  cases r <;> simp [step_book ht, runBook, runReturnSample, hs, failCall, deliver, callResult, hc]

theorem step_returnArray {rest : List Micro} (ht : s.task = .book .returnArray :: rest) :
    step s = .next { s with
      task := rest, collected := [], results := s.results ++ [⟨s.sink, .array s.collected⟩] } := by
  simp [step_book ht, runBook, runReturnArray, deliver]

end oneStep

section sequences
variable {s : State} {h : Handle} {rest : List Micro} {ws : List WriteReply} {rs : List ReadReply} {b : ReadBuffer}

/-- The first half of an attempt (R166): encode, write, wait. -/
theorem steps_startSequence {cfg : RegisterConfig} {d : Micros} (k : Nat) (hh : s.handle = some h)
    (ht : s.task = startSequence cfg d ++ rest) (hw : s.writeReplies = .accepted :: ws) :
    steps (k + 3) s = steps k { s with
      task := rest, encOut := some (packConfig cfg), writeReplies := ws,
      trace := s.trace ++ [.write h.address (packConfig cfg), .delay d] } := by
  refine (steps_succ (step_enc ht)).trans ((steps_succ (step_busWrite_accepted rfl (by exact hh) (by exact hw))).trans
    ((steps_succ (step_delay rfl)).trans ?_))
  simp

/-- The second half of an attempt (R166): read and decode. -/
theorem steps_sampleSequence (k : Nat) (hh : s.handle = some h) (ht : s.task = sampleSequence ++ rest)
    (hr : s.readReplies = .filled (b.b0, b.b1, b.b2, b.b3) :: rs) :
    steps (k + 2) s = steps k { s with
      task := rest, buf := s.buf.fill b, smpOut := some (smpDec b), readReplies := rs,
      trace := s.trace ++ [.read h.address] } :=
  (steps_succ (step_busRead_filled ht hh hr)).trans (steps_succ (step_smp rfl rfl))

/-- One whole attempt (R166). -/
theorem steps_attempt {p : Shot} (k : Nat) (hh : s.handle = some h) (ht : s.task = attempt p ++ rest)
    (hw : s.writeReplies = .accepted :: ws) (hr : s.readReplies = .filled (b.b0, b.b1, b.b2, b.b3) :: rs) :
    steps (k + 5) s = steps k { s with
      task := rest, encOut := some (packConfig (requestConfig p.cfg)), writeReplies := ws, readReplies := rs,
      buf := s.buf.fill b, smpOut := some (smpDec b),
      trace := s.trace ++ [.write h.address (packConfig (requestConfig p.cfg)), .delay p.delay, .read h.address] } := by
  refine (steps_startSequence (k + 2) hh (by rw [ht, attempt, List.append_assoc]) hw).trans
    ((steps_sampleSequence k (by exact hh) rfl (by exact hr)).trans ?_)
  simp

end sequences

/-- The request bit of a written configuration (R167). -/
theorem packConfig_requestConfig_bit7 (cfg : RegisterConfig) :
    (packConfig (requestConfig cfg)).getLsbD 7 = true := by
  have h := unpackConfig_ready (packConfig (requestConfig cfg))
  rw [unpackConfig_packConfig] at h
  simpa [requestConfig] using h.symm

end Sys2Proof.Machine
end

