-- ==== Sys2Proof/Tests/Slice0.lean ====
section
/-! SUPPORT. Tests of this model, each on one step or one word, and the witnesses of the statements' hypotheses.
Expected values come from the spec: the bit patterns of 30_encoding.md and the vectors of 95_test_vectors.md (V, E, T, S,
X, K, F), cited in each name or comment. -/

namespace Sys2Proof.Tests

open Sys2Proof Sys2Proof.Machine

/-! ## WellFormed refuses an ill-formed term of each check (R78: `SS ≠ 11`) -/

theorem smoke_ill_formed_W2R12 : Instr.wellFormed (.smpDecW2R12 1 true .ch1 .oneShot .g1 0b00001100#8) = false := by decide
theorem smoke_ill_formed_W2R14 : Instr.wellFormed (.smpDecW2R14 1 true .ch1 .oneShot .g1 0b11111111#8) = false := by decide
theorem smoke_ill_formed_W2R16 : Instr.wellFormed (.smpDecW2R16 1 true .ch1 .oneShot .g1 0b10001101#8) = false := by decide
theorem smoke_ill_formed_W2R18 : Instr.wellFormed (.smpDecW2R18 1 true .ch1 .oneShot .g1 0b00001110#8) = false := by decide
theorem smoke_well_formed_tails :
    tailWellFormed 0b11110011#8 = true ∧ tailWellFormed 0b00001000#8 = true ∧ tailWellFormed 0b00000100#8 = true := by
  decide

/-! ## Every constructor's decoding, from a word written out bit by bit (R70, R77, R78) -/

/-- `rccmssgg` = 1 11 0 11 11 (E14). -/
theorem test_decode_cfgEnc : decode .enc [0b11101111#8] = .ok (.cfgEnc false .ch4 .oneShot .r18 .g8) := by decide
theorem test_decode_cfgDec : decode .dec [0b01010110#8] = .ok (.cfgDec 0x56#8) := by decide
/-- `dddddddd dddddddd dddddddd rccm11gg`, config 0 11 1 11 01. -/
theorem test_decode_W3 : decode .smp [0b10000000#8, 0b00000010#8, 0b00000001#8, 0b01111101#8] =
    .ok (.smpDecW3 0x800201#24 true .ch4 .continuous .g2) := by decide
/-- `dddddddd dddddddd rccmssgg xxxxSSxx`, config 0 01 0 00 11, `SS` = 10. -/
theorem test_decode_W2R12 : decode .smp [0b00000111#8, 0b11111110#8, 0b00100011#8, 0b11111011#8] =
    .ok (.smpDecW2R12 0x07FE#16 true .ch2 .oneShot .g8 0xFB#8) := by decide
/-- Config 1 10 1 01 00, `SS` = 00. -/
theorem test_decode_W2R14 : decode .smp [0b00011111#8, 0b00000001#8, 0b11010100#8, 0b00000000#8] =
    .ok (.smpDecW2R14 0x1F01#16 false .ch3 .continuous .g1 0x00#8) := by decide
/-- Config 0 00 0 10 10, `SS` = 01. -/
theorem test_decode_W2R16 : decode .smp [0b10000000#8, 0b00000001#8, 0b00001010#8, 0b00000100#8] =
    .ok (.smpDecW2R16 0x8001#16 true .ch1 .oneShot .g4 0x04#8) := by decide
/-- Config 0 00 0 11 00 at index 2 and `SS` = 00: the corner form (K5). -/
theorem test_decode_W2R18 : decode .smp [0b00000000#8, 0b00000001#8, 0b00001100#8, 0b00000000#8] =
    .ok (.smpDecW2R18 0x0001#16 true .ch1 .oneShot .g1 0x00#8) := by decide
/-- D12: `buf[0]` is in bits 31:24 of a table word (K16). -/
theorem test_decode_table_word : decodeTableWord 32 0x12345678 =
    some (.smpDecW2R14 0x1234#16 true .ch3 .continuous .g4 0x78#8) := by decide
/-- D8: a buffer of another length is no instruction. -/
theorem test_decode_wrong_length : decode .smp [0#8, 1#8, 0#8] = .error (.wrongLength .smp 3) := by decide

/-! ## One step of each instruction -/

/-- A state that is asked for one drive of the block, with these four bytes in the read buffer. -/
def driving (d : Drive) (b0 b1 b2 b3 : Byte) : State :=
  { State.reset with buf := [(0, b0), (1, b1), (2, b2), (3, b3)], program := [.drive d] }

/-- What stands at unit SMP's output after one step. -/
def smpAfter (b0 b1 b2 b3 : Byte) : Option SmpResult :=
  match step (driving .smp b0 b1 b2 b3) with
  | .next t => t.smpOut
  | _ => none

/-- E13. -/
theorem test_cfgEnc_E13 : step (driving (.enc ⟨true, .ch2, .continuous, .r16, .g8⟩) 0 0 0 0) =
    .next { driving (.enc ⟨true, .ch2, .continuous, .r16, .g8⟩) 0 0 0 0 with encOut := some 0x3B#8, program := [] } := rfl
/-- E1 and F11: `ready` is stored inverted. -/
theorem test_cfgEnc_F11 : packConfig ⟨true, .ch1, .oneShot, .r12, .g1⟩ = 0x00#8 := by decide
/-- T8. -/
theorem test_cfgDec_T8 : step (driving (.dec 0xA5#8) 0 0 0 0) =
    .next { driving (.dec 0xA5#8) 0 0 0 0 with
      decOut := some ⟨false, .ch2, .oneShot, .r14, .g2⟩, program := [] } := rfl
/-- F13: the resolution and the gain are not exchanged. -/
theorem test_cfgDec_F13 : unpackConfig 0x04#8 = ⟨true, .ch1, .oneShot, .r14, .g1⟩ := by decide
/-- V6 and F7. -/
theorem test_W3_V6 : smpAfter 0x00 0x00 0x01 0x0C = some (.ok ⟨8⟩) := by decide
/-- V17: the reserved maximum. -/
theorem test_W3_V17 : smpAfter 0x01 0xFF 0xFF 0x0C = some (.raised (.illegalValue 131071 (-131072) 131071)) := by decide
/-- K8: sign bit set, the bits above it no copies of it. -/
theorem test_W2R12_K8 : smpAfter 0x18 0x01 0x00 0x00 = some (.ok ⟨-1048064⟩) := by decide
/-- K20: `NotReady` wins over the reserved code. -/
theorem test_W2R12_K20 : smpAfter 0x07 0xFF 0x80 0x00 = some (.raised .notReady) := by decide
/-- S16. -/
theorem test_W2R14_S16 : smpAfter 0xFF 0xFD 0x07 0x07 = some (.ok ⟨-48⟩) := by decide
/-- V12: the reserved minimum. -/
theorem test_W2R14_V12 : smpAfter 0xE0 0x00 0x04 0x00 = some (.raised (.illegalValue (-8192) (-8192) 8191)) := by decide
/-- F8: nothing is truncated. -/
theorem test_W2R16_F8 : smpAfter 0x00 0x03 0x0B 0x0B = some (.ok ⟨12⟩) := by decide
/-- V14. -/
theorem test_W2R16_V14 : smpAfter 0x80 0x00 0x08 0x00 = some (.raised (.illegalValue (-32768) (-32768) 32767)) := by decide
/-- K5: the config byte is the third data byte too. -/
theorem test_W2R18_K5 : smpAfter 0x00 0x01 0x0C 0x00 = some (.ok ⟨2144⟩) := by decide
/-- K6. -/
theorem test_W2R18_K6 : smpAfter 0x04 0x00 0x0C 0x00 = some (.raised (.illegalValue 262156 (-131072) 131071)) := by decide
/-- K4: a stray `0x0C` behind a 16-bit sample. -/
theorem test_stray_selector_K4 : smpAfter 0x00 0x01 0x08 0x0C = some (.ok ⟨2112⟩) := by decide
/-- Nothing driven: the outputs are absent, and the reset buffer is canonical. -/
theorem test_reset : State.reset.smpOut = none ∧ State.reset.buf.wf = true := by decide

/-! ## Witnesses: for each statement with hypotheses, a state and operands that meet them all -/

theorem witness_OperationMap :
    (0xFFFFFFFF < 2 ^ 32 ∧ 0xFFFFFFFF &&& 0x0000000C = 0x0000000C) ∧ (0 < 2 ^ 32 ∧ 0 &&& 0x00000C00 = 0) ∧
    (0x00000400 < 2 ^ 32 ∧ 0x400 &&& 0x00000C00 = 0x400) ∧ (0x00000800 < 2 ^ 32 ∧ 0x800 &&& 0x00000C00 = 0x800) ∧
    (0xFFFFFFF3 < 2 ^ 32 ∧ 0xFFFFFFF3 &&& 0x0000000C ≠ 0x0000000C ∧ 0xFFFFFFF3 &&& 0x00000C00 = 0x00000C00) := by decide

theorem witness_DecodeOfEncode : Instr.wellFormed (.smpDecW2R18 0xFFFF#16 false .ch4 .continuous .g8 0xFB#8) = true := by
  decide
theorem witness_EncodeOfDecode : decode .smp [0x00#8, 0x01#8, 0x0C#8, 0xFB#8] =
    .ok (.smpDecW2R18 0x0001#16 true .ch1 .oneShot .g1 0xFB#8) := by decide
theorem witness_CfgEncGivesByte :
    ∃ t, exec (.cfgEnc false .ch4 .continuous .r18 .g8) State.reset = .next t ∧ t.encOut = some 0xFF#8 :=
  ⟨_, rfl, by decide⟩

/-- X13, the largest valid code. -/
theorem witness_FormW3 : closedForm 3 (Gain.code .g1).toNat (0x01FFFE#24 : BitVec 24).toNat true = .ok ⟨1048560⟩ := by decide
/-- X1, X6 and X11: a largest or smallest valid code of each form. -/
theorem witness_FormsW2 : tailWellFormed 0x0B#8 = true ∧
    closedForm 0 (Gain.code .g1).toNat (0x07FE#16 : BitVec 16).toNat true = .ok ⟨1047552⟩ ∧
    closedForm 1 (Gain.code .g1).toNat (0xE001#16 : BitVec 16).toNat true = .ok ⟨-1048448⟩ ∧
    closedForm 2 (Gain.code .g8).toNat (0x7FFE#16 : BitVec 16).toNat true = .ok ⟨131064⟩ := by decide
theorem witness_FormW2R18 : tailWellFormed 0xF3#8 = true := by decide
/-- All 24 bits set, and the greatest 18-bit value whose sign bit is clear. -/
theorem witness_SignExtension : (0xFFFFFF#32 : Word32).toNat < 2 ^ 24 ∧
    (0xFFFFFF#32 : Word32).getLsbD (bits .r18 - 1) = true ∧ (0x1FFFF#32 : Word32).toNat < 2 ^ (bits .r18 - 1) := by decide
/-- A codec instruction, the hypothesis of the last clause of both statements. -/
theorem witness_NotReady_IllegalValue_codec : (Instr.cfgDec 0x80#8).blockUnit ≠ .smp := by decide
/-- V10 and V11: the codes at the bounds themselves. -/
theorem witness_IllegalValue_bounds :
    smpDec ⟨0xF8, 0x00, 0x00, 0x00⟩ = .raised (.illegalValue (-2048) (-2048) 2047) ∧
    smpDec ⟨0x07, 0xFF, 0x00, 0x00⟩ = .raised (.illegalValue 2047 (-2048) 2047) := by decide
/-- X14. -/
theorem witness_VoltageFormula : smpDec ⟨0xFE, 0x00, 0x01, 0x0C⟩ = .ok ⟨-1048568⟩ := by decide
/-- X14: the largest magnitude of a valid code, with the largest scale. -/
theorem witness_NoOverflow : 2 ^ 34 - 1 < 2 ^ 34 ∧ minCode .r18 < sampleCode ⟨0xFE, 0x00, 0x01, 0x0C⟩ .r18 ∧
    sampleCode ⟨0xFE, 0x00, 0x01, 0x0C⟩ .r18 < maxCode .r18 := by decide
theorem witness_IgnoredBits : tailWellFormed 0x00#8 = true ∧ tailWellFormed 0xFB#8 = true := by decide
theorem witness_BitsAboveSign :
    ((0x020001#24 : BitVec 24).getLsbD 17 = true ∧ (0xFE0001#24 : BitVec 24).getLsbD 17 = true ∧
      (0x020001#24 : BitVec 24).extractLsb' 0 17 = (0xFE0001#24 : BitVec 24).extractLsb' 0 17) ∧
    ((0x040000#24 : BitVec 24).getLsbD 17 = false ∧ (0x040000#24 : BitVec 24).extractLsb' 18 6 ≠ 0#6) ∧
    tailWellFormed 0x00#8 = true ∧
    ((0x1801#16 : BitVec 16).getLsbD 11 = true ∧ (0xF801#16 : BitVec 16).getLsbD 11 = true ∧
      (0x1801#16 : BitVec 16).extractLsb' 0 11 = (0xF801#16 : BitVec 16).extractLsb' 0 11) ∧
    ((0x1000#16 : BitVec 16).getLsbD 11 = false ∧ (0x1000#16 : BitVec 16).extractLsb' 12 4 ≠ 0#4) ∧
    ((0x2001#16 : BitVec 16).getLsbD 13 = true ∧ (0xE001#16 : BitVec 16).getLsbD 13 = true ∧
      (0x2001#16 : BitVec 16).extractLsb' 0 13 = (0xE001#16 : BitVec 16).extractLsb' 0 13) ∧
    ((0x4000#16 : BitVec 16).getLsbD 13 = false ∧ (0x4000#16 : BitVec 16).extractLsb' 14 2 ≠ 0#2) := by decide
theorem witness_OutputsDependOnOperandsOnly : (Instr.cfgEnc true .ch1 .oneShot .r12 .g1).blockUnit = .enc ∧
    (Instr.cfgDec 0#8).blockUnit = .dec ∧ (Instr.smpDecW3 0 true .ch1 .oneShot .g1).blockUnit = .smp := by decide
theorem witness_UnitsCommute :
    (Instr.cfgEnc true .ch1 .oneShot .r12 .g1).blockUnit ≠ (Instr.smpDecW3 0 true .ch1 .oneShot .g1).blockUnit := by decide

/-- A state in whose call in progress one thing stands, on a buffer that is filled. -/
def tasked (m : Micro) : State :=
  { State.reset with buf := [(0, 0x00), (1, 0x01), (2, 0x0C), (3, 0x00)], task := [m] }

theorem witness_StepRunsDecodedInstruction_enc :
    (tasked (.drive (.enc ⟨true, .ch1, .oneShot, .r12, .g1⟩))).takes
      (.drive (.enc ⟨true, .ch1, .oneShot, .r12, .g1⟩))
      { tasked (.drive (.enc ⟨true, .ch1, .oneShot, .r12, .g1⟩)) with task := [] } :=
  .inl ⟨_, rfl, rfl⟩
theorem witness_StepRunsDecodedInstruction_dec : decode .dec [0x80#8] = .ok (.cfgDec 0x80#8) ∧
    (driving (.dec 0x80#8) 0 0 0 0).takes (.drive (.dec 0x80#8)) { driving (.dec 0x80#8) 0 0 0 0 with program := [] } :=
  ⟨rfl, .inr ⟨_, _, rfl, rfl, rfl, rfl⟩⟩
theorem witness_StepRunsDecodedInstruction_smp :
    (tasked (.drive .smp)).takes (.drive .smp) { tasked (.drive .smp) with task := [] } ∧
    (let m := (tasked (.drive .smp)).buf
     decode .smp [m.byteAt 0, m.byteAt 1, m.byteAt 2, m.byteAt 3]) =
      .ok (.smpDecW2R18 0x0001#16 true .ch1 .oneShot .g1 0x00#8) :=
  ⟨.inl ⟨_, rfl, rfl⟩, rfl⟩
theorem witness_FetchWordRuns : decodeTableWord 8 0xFF = some (.cfgDec 0xFF#8) ∧
    decodeTableWord 32 0xFFFFFFFF = some (.smpDecW3 0xFFFFFF#24 false .ch4 .continuous .g8) ∧
    (31 ≠ 8 ∧ 31 ≠ 32) ∧ (33 ≠ 8 ∧ 33 ≠ 32) := by decide
/-- R54, D8: the lengths next to the port's 32 bits are refused, the shorter and the longer alike. -/
theorem test_other_word_lengths_refused :
    step (State.reset.withFetchWord 31 0) = .refused (.bufferLength 3) ∧
    step (State.reset.withFetchWord 33 0) = .refused (.bufferLength 5) ∧
    step (State.reset.withFetchWord 39 0) = .refused (.bufferLength 5) := ⟨rfl, rfl, rfl⟩
/-- The machine right after reset, asked to drive unit SMP: no index of the buffer was ever written. -/
theorem witness_UnwrittenBufferRuns :
    ({ State.reset with program := [.drive .smp] } : State).takes (.drive .smp) State.reset ∧
    (State.reset.buf.read 0 = none ∧ State.reset.buf.read 3 = none) ∧ Memory.read [(0, 7#8)] 0 = some 7#8 :=
  ⟨.inr ⟨_, _, rfl, rfl, rfl, rfl⟩, ⟨rfl, rfl⟩, rfl⟩
theorem witness_NoStepFaults : State.Inv { State.reset with smpOut := some (.raised .notReady), task := [.book .collect] } := by
  refine ⟨rfl, .inl rfl, ?_, ?_, ?_, ?_, ?_, .inl rfl⟩
  · rintro r ⟨⟩; exact trivial
  all_goals simp [State.reset]

/-- A state with nothing in progress, one line of program, a handle and the bus's answers. -/
def asked (o : Op) (m : Option ModeState) (ws : List WriteReply) (rs : List ReadReply) : State :=
  { State.reset with
    program := [o], handle := m.map (fun m => ⟨0x68#7, m⟩), writeReplies := ws, readReplies := rs }

theorem witness_HandedBuffer :
    (asked (.act (.hand [1, 2, 3])) none [] []).takes (.act (.hand [1, 2, 3])) State.reset ∧ [1, 2, 3].length ≠ 4 ∧
    (tasked (.act (.hand [1, 2, 3, 4]))).takes (.act (.hand [1, 2, 3, 4]))
      { tasked (.act (.hand [1, 2, 3, 4])) with task := [] } ∧ [1, 2, 3, 4].length = 4 :=
  ⟨.inr ⟨_, _, rfl, rfl, rfl, rfl⟩, by decide, .inl ⟨_, rfl, rfl⟩, by decide⟩
theorem witness_NothingDrivenNothingChanges : State.reset.task = [] ∧ State.reset.program = [] := by decide

/-- The invariant holds of a state that holds something in every field it speaks of. -/
theorem witness_StepKeepsInvariant :
    State.Inv { asked (.call .measure) (some (.oneShot ⟨⟨true, .ch1, .oneShot, .r12, .g1⟩, 0⟩)) [.accepted] [] with
      buf := [(0, 0), (1, 1), (2, 0), (3, 0)], smpOut := some (.ok ⟨512⟩), collected := [⟨512⟩],
      results := [⟨.caller, .voltage ⟨512⟩⟩] } := by
  refine ⟨rfl, .inr rfl, ?_, ?_, ?_, ?_, ?_, .inl rfl⟩
  · rintro r ⟨⟩; exact ⟨by decide, by decide⟩
  · simp [Voltage.inRange]
  · simp [CallResult.legal, Voltage.inRange]
  · rintro h ⟨⟩; rfl
  · simp [asked, State.reset]

/-- The default Configuration, for a fixed waiting time (R231). -/
def defaultSetup (us : Micros) : Setup := ⟨defaultConfiguration (.absolute us), true⟩

theorem witness_ConfigurationBecomesRegisterConfig :
    (asked (.call (.new 0x68#7 (.oneShot (defaultSetup 5)))) none [] []).handle = none ∧
    (asked (.call (.new 0x68#7 (.multiShot [defaultSetup 5]))) none [] []).task = [] ∧
    [(⟨⟨true, .ch1, .oneShot, .r12, .g1⟩, 5⟩ : Shot)] ≠ [] ∧
    delayOf (defaultSetup 5).configuration = some 5 ∧
    [defaultSetup 5].map (shotOf .oneShot) = [(⟨⟨true, .ch1, .oneShot, .r12, .g1⟩, 5⟩ : Shot)].map some := by decide

/-- The clauses at their boundary values: below 0, the sum 0, the greatest 32-bit sum. -/
theorem witness_DelayRule :
    (∃ d : Int, (Config.nominalConversionTime .r12 : Int) + d = -1) ∧
    (∃ d : Int, (Config.nominalConversionTime .r12 : Int) + d = 0) ∧
    (∃ d : Int, (Config.nominalConversionTime .r12 : Int) + d = 2 ^ 32 - 1) :=
  ⟨⟨-1 - Config.nominalConversionTime .r12, by omega⟩, ⟨-Config.nominalConversionTime .r12, by omega⟩,
    ⟨2 ^ 32 - 1 - Config.nominalConversionTime .r12, by omega⟩⟩

/-- An offset long enough that no resolution's delay fits 32 bits. -/
def overflowing : Setup := ⟨⟨.ch1, .r12, .g1, .offset (2 ^ 32)⟩, true⟩

theorem overflowing_has_no_delay : delayOf overflowing.configuration = none := by
  have h : ∀ d : Int, 2 ^ 32 ≤ (Config.nominalConversionTime .r12 : Int) + d →
      delayOf ⟨.ch1, .r12, .g1, .offset d⟩ = none := by
    intro d hd
    simp only [delayOf]
    rw [if_neg (by omega)]
  exact h (2 ^ 32) (by omega)

theorem witness_DelayOverflowRefused :
    2 ^ 32 ≤ (Config.nominalConversionTime .r12 : Int) + 2 ^ 32 ∧ (ModeSetup.oneShot overflowing).overflows ∧
    (asked (.call (.new 1 (.oneShot overflowing))) none [] []).handle = none ∧
    (ModeSetup.continuous overflowing).overflows ∧ (ModeSetup.multiShot [defaultSetup 5, overflowing]).overflows ∧
    ModeState.sameMode (.multiShot [⟨⟨true, .ch1, .oneShot, .r12, .g1⟩, 5⟩]) (.multiShot [overflowing]) = true ∧
    ModeState.sameCount (.multiShot [⟨⟨true, .ch1, .oneShot, .r12, .g1⟩, 5⟩]) (.multiShot [overflowing]) = true :=
  ⟨by omega, overflowing_has_no_delay, rfl, overflowing_has_no_delay,
    ⟨overflowing, by simp, overflowing_has_no_delay⟩, rfl, rfl⟩

/-- P1: OneShot with the default Configuration. -/
def oneShotP1 : State :=
  asked (.call .measure) (some (.oneShot ⟨⟨true, .ch1, .oneShot, .r12, .g1⟩, 5⟩)) [.accepted]
    [.filled (0x00, 0x01, 0x00, 0x00)]

theorem witness_OneShotMeasure : oneShotP1.task = [] ∧ oneShotP1.program = [.call .measure] ∧
    oneShotP1.handle = some ⟨0x68#7, .oneShot ⟨⟨true, .ch1, .oneShot, .r12, .g1⟩, 5⟩⟩ ∧
    oneShotP1.writeReplies = [.accepted] ∧ oneShotP1.readReplies = [.filled (0x00, 0x01, 0x00, 0x00)] := by decide

/-- P2: Continuous, at its first and at a later measurement, one of them not ready. -/
def continuousP2 (c : Call) (init : Bool) : State :=
  asked (.call c) (some (.continuous ⟨⟨false, .ch1, .continuous, .r12, .g1⟩, 5⟩ init)) [.accepted]
    [.filled (0x03, 0xE8, 0x90, 0x90)]

theorem witness_ContinuousFirstMeasure : (continuousP2 .measure false).task = [] ∧
    (continuousP2 .measure false).program = [.call .measure] ∧
    (continuousP2 .measure false).handle =
      some ⟨0x68#7, .continuous ⟨⟨false, .ch1, .continuous, .r12, .g1⟩, 5⟩ false⟩ ∧
    (continuousP2 .measure false).writeReplies = [.accepted] ∧
    (continuousP2 .measure false).readReplies = [.filled (0x03, 0xE8, 0x90, 0x90)] := by decide
theorem witness_ContinuousLaterMeasure : (continuousP2 .pull true).task = [] ∧
    (continuousP2 .pull true).program = [.call .pull] ∧ (continuousP2 .measure true).program = [.call .measure] ∧
    (continuousP2 .pull true).handle =
      some ⟨0x68#7, .continuous ⟨⟨false, .ch1, .continuous, .r12, .g1⟩, 5⟩ true⟩ ∧
    (continuousP2 .pull true).readReplies = [.filled (0x03, 0xE8, 0x90, 0x90)] := by decide

theorem witness_PullIsOneMeasurement : (continuousP2 .pull false).task = [] ∧
    (continuousP2 .pull false).handle.isSome = true ∧ (continuousP2 .pull false).program = [.call .pull] ∧
    (continuousP2 .measure false).program = [.call .measure] := by decide

/-- P3: MultiShot with N = 2, and its failing variant. -/
def shotsP3 : List Shot := [⟨⟨true, .ch2, .oneShot, .r12, .g1⟩, 5⟩, ⟨⟨true, .ch1, .oneShot, .r16, .g1⟩, 7⟩]

theorem witness_MultiShotCollectsAll :
    let s := asked (.call .measure) (some (.multiShot shotsP3)) [.accepted, .accepted]
      [.filled (0x00, 0x01, 0x20, 0x20), .filled (0x00, 0x02, 0x08, 0x08)]
    s.task = [] ∧ s.program = [.call .measure] ∧ s.handle = some ⟨0x68#7, .multiShot shotsP3⟩ ∧
    [(⟨0x00, 0x01, 0x20, 0x20⟩ : ReadBuffer), ⟨0x00, 0x02, 0x08, 0x08⟩].length = shotsP3.length ∧
    [(⟨0x00, 0x01, 0x20, 0x20⟩ : ReadBuffer), ⟨0x00, 0x02, 0x08, 0x08⟩].map smpDec =
      [(⟨512⟩ : Voltage), ⟨64⟩].map .ok ∧
    s.writeReplies = List.replicate shotsP3.length .accepted ++ [] ∧
    s.readReplies = [(⟨0x00, 0x01, 0x20, 0x20⟩ : ReadBuffer), ⟨0x00, 0x02, 0x08, 0x08⟩].map
      (fun b => .filled (b.b0, b.b1, b.b2, b.b3)) ++ [] := by decide

theorem witness_MultiShotAbortsOnFirstError :
    let p : Shot := ⟨⟨true, .ch2, .oneShot, .r12, .g1⟩, 5⟩
    let q : Shot := ⟨⟨true, .ch1, .oneShot, .r16, .g1⟩, 7⟩
    let s := asked (.call .measure) (some (.multiShot [p, q, p])) [.accepted, .accepted]
      [.filled (0x00, 0x01, 0x20, 0x20), .filled (0x00, 0x02, 0x88, 0x88)]
    s.task = [] ∧ s.program = [.call .measure] ∧ s.handle = some ⟨0x68#7, .multiShot ([p] ++ q :: [p])⟩ ∧
    [(⟨0x00, 0x01, 0x20, 0x20⟩ : ReadBuffer)].map smpDec = [(⟨512⟩ : Voltage)].map .ok ∧
    smpDec ⟨0x00, 0x02, 0x88, 0x88⟩ = .raised .notReady ∧
    s.writeReplies = List.replicate ([p].length + 1) .accepted ++ [] ∧
    s.readReplies = ([⟨0x00, 0x01, 0x20, 0x20⟩] ++ [⟨0x00, 0x02, 0x88, 0x88⟩] : List ReadBuffer).map
      (fun b => .filled (b.b0, b.b1, b.b2, b.b3)) ++ [] := by decide

/-- A state in the middle of a OneShot call, before its bus write or its bus read. -/
def midCall (m : Micro) (w : WriteReply) (r : ReadReply) : State :=
  { oneShotP1 with program := [], task := [m, .book .returnSample], writeReplies := [w], readReplies := [r] }

theorem witness_BusErrorEndsCall :
    let w := midCall (.act (.busWrite 0x80)) (.failed 3) (.failed 4)
    let r := midCall (.act .busRead) (.failed 3) (.failed 4)
    w.handle.isSome = true ∧
    w.takes (.act (.busWrite 0x80)) { w with task := [.book .returnSample] } ∧
    State.answersWrite { w with task := [.book .returnSample] } (.failed 3)
      { w with task := [.book .returnSample], writeReplies := [] } ∧
    r.takes (.act .busRead) { r with task := [.book .returnSample] } ∧
    State.answersRead { r with task := [.book .returnSample] } (.failed 4)
      { r with task := [.book .returnSample], readReplies := [] } :=
  ⟨rfl, .inl ⟨_, rfl, rfl⟩, .inl ⟨_, rfl, rfl⟩, .inl ⟨_, rfl, rfl⟩, .inl ⟨_, rfl, rfl⟩⟩
/-- A line of the program, and answers that nothing outside has fixed. -/
theorem witness_BusAndTimer :
    let w := asked (.act (.busWrite 0x80)) (some (.multiShot shotsP3)) [.accepted] []
    let d := asked (.act (.delay 5)) none [] []
    let r := asked (.act .busRead) (some (.multiShot shotsP3)) [] [.filled (0, 1, 0, 0)]
    let f := asked (.act .busRead) (some (.multiShot shotsP3)) [] []
    w.takes (.act (.busWrite 0x80)) { w with program := [] } ∧
    State.answersWrite { w with program := [] } .accepted { w with program := [], writeReplies := [] } ∧
    d.takes (.act (.delay 5)) { d with program := [] } ∧
    r.takes (.act .busRead) { r with program := [] } ∧
    State.answersRead { r with program := [] } (.filled (0, 1, 0, 0)) { r with program := [], readReplies := [] } ∧
    f.takes (.act .busRead) { f with program := [] } ∧
    State.answersRead { f with program := [] } (Config.freeReadReply 0) { f with program := [], draws := 1 } :=
  ⟨.inr ⟨_, _, rfl, rfl, rfl, rfl⟩, .inl ⟨_, rfl, rfl⟩, .inr ⟨_, _, rfl, rfl, rfl, rfl⟩, .inr ⟨_, _, rfl, rfl, rfl, rfl⟩,
    .inl ⟨_, rfl, rfl⟩, .inr ⟨_, _, rfl, rfl, rfl, rfl⟩, .inr ⟨rfl, rfl, rfl⟩⟩

theorem witness_ContinuousConfigure :
    let c : Op := .call (.configure (.continuous ⟨⟨.ch2, .r16, .g8, .absolute 9⟩, false⟩))
    let m : ModeState := .continuous ⟨⟨false, .ch1, .continuous, .r12, .g1⟩, 5⟩ true
    (asked c (some m) [.accepted] []).task = [] ∧ (asked c (some m) [.accepted] []).program = [c] ∧
    (asked c (some m) [.accepted] []).handle = some ⟨0x68#7, m⟩ ∧
    (asked c (some m) [.accepted] []).writeReplies = [.accepted] ∧
    (asked c (some m) [.failed 3] []).writeReplies = [.failed 3] ∧
    delayOf ⟨.ch2, .r16, .g8, .absolute 9⟩ = some 9 := by decide

theorem witness_ConfigureReplacesPairs :
    let setup : Setup := ⟨⟨.ch2, .r16, .g8, .absolute 9⟩, false⟩
    let one : State := asked (.call (.configure (.oneShot setup)))
      (some (.oneShot ⟨⟨true, .ch1, .oneShot, .r12, .g1⟩, 5⟩)) [] []
    let multi (n : Nat) : State :=
      asked (.call (.configure (.multiShot (List.replicate n setup)))) (some (.multiShot shotsP3)) [] []
    one.task = [] ∧ one.handle = some ⟨0x68#7, .oneShot ⟨⟨true, .ch1, .oneShot, .r12, .g1⟩, 5⟩⟩ ∧
    (multi 2).handle = some ⟨0x68#7, .multiShot shotsP3⟩ ∧ (List.replicate 1 setup).length ≠ shotsP3.length ∧
    (List.replicate 2 setup).length = shotsP3.length ∧
    (List.replicate 2 setup).map (shotOf .oneShot) =
      (List.replicate 2 (⟨⟨false, .ch2, .oneShot, .r16, .g8⟩, 9⟩ : Shot)).map some := by decide

theorem witness_AbandonedCall :
    2 < (measureSequence (.oneShot ⟨⟨true, .ch1, .oneShot, .r12, .g1⟩, 5⟩)).countP isSuspension ∧
    5 < (measureSequence (.multiShot shotsP3)).countP isSuspension ∧
    (asked (.call (.abandon .caller 2)) (some (.multiShot shotsP3)) [] []).program = [.call (.abandon .caller 2)] ∧
    (asked (.call (.abandon .stream 2)) (some (.multiShot shotsP3)) [] []).handle = some ⟨0x68#7, .multiShot shotsP3⟩ ∧
    (let c : Op := .call (.abandonConfigure (.continuous (defaultSetup 5)) 0)
     let s := asked c (some (.continuous shotsP3[0] true)) [] []
     s.task = [] ∧ s.program = [c] ∧ s.handle = some ⟨0x68#7, .continuous shotsP3[0] true⟩) ∧
    shotOf .continuous (defaultSetup 5) = some ⟨⟨true, .ch1, .continuous, .r12, .g1⟩, 5⟩ ∧
    (∀ old init, ModeState.multiShot shotsP3 ≠ .continuous old init) :=
  ⟨by decide, by decide, rfl, rfl, ⟨rfl, rfl, rfl⟩, rfl, fun _ _ => nofun⟩

theorem witness_ImpossibleRequestsRefused :
    (asked (.act (.busWrite 0x80)) none [] []).takes (.act (.busWrite 0x80)) State.reset ∧
    (asked (.act .busRead) none [] []).handle = none ∧ (∀ a setup, Call.abandon .caller 3 ≠ .new a setup) ∧
    (asked (.call (.new 1 (.multiShot []))) (some (.multiShot shotsP3)) [] []).handle = some ⟨0x68#7, .multiShot shotsP3⟩ ∧
    (asked (.call (.new 1 (.multiShot []))) none [] []).handle = none ∧
    (asked (.call (.configure (.continuous (defaultSetup 5)))) (some (.multiShot shotsP3)) [] []).handle =
      some ⟨0x68#7, .multiShot shotsP3⟩ ∧
    ModeState.sameMode (.multiShot shotsP3) (.continuous (defaultSetup 5)) = false ∧
    ModeState.sameMode (.continuous shotsP3[0] true) (.oneShot (defaultSetup 5)) = false :=
  ⟨.inr ⟨_, _, rfl, rfl, rfl, rfl⟩, rfl, fun _ _ => nofun, rfl, rfl, rfl, rfl, rfl⟩

end Sys2Proof.Tests
end

section
/-! PROOFS. The codes of the enumerations and their places in the configuration byte (30_encoding.md, R72 to R74). -/

namespace Sys2Proof

/-! Each field of the packed byte: the bits read back to the record's enumerator, and an enumerator's code is the bits
it was read from. -/

/-- R72: the sample mode stands in bit 4. -/
theorem extractLsb'_packConfig_sampleMode (cfg : RegisterConfig) :
    (packConfig cfg).extractLsb' 4 1 = cfg.sampleMode.code :=
  (code_sampleModeOfCode _).symm.trans (congrArg (·.sampleMode.code) (unpackConfig_packConfig cfg))

/-- R73: the resolution stands in bits 3:2. -/
theorem extractLsb'_packConfig_resolution (cfg : RegisterConfig) :
    (packConfig cfg).extractLsb' 2 2 = cfg.resolution.code :=
  (code_resolutionOfCode _).symm.trans (congrArg (·.resolution.code) (unpackConfig_packConfig cfg))

/-- R74: the gain stands in bits 1:0. -/
theorem extractLsb'_packConfig_gain (cfg : RegisterConfig) :
    (packConfig cfg).extractLsb' 0 2 = cfg.gain.code :=
  (code_gainOfCode _).symm.trans (congrArg (·.gain.code) (unpackConfig_packConfig cfg))

/-- Settles O1: the codes and the multipliers are the rows of their tables, each code reads back, and the packed byte
holds each field's code in its own bits. -/
theorem fieldCodes : Obligations.FieldCodes := by
  unfold Obligations.FieldCodes
  refine ⟨?modeCodes, ?resolutionCodes, ?gainCodes, ?multipliers, sampleModeOfCode_code, resolutionOfCode_code,
    gainOfCode_code, fun cfg => ?fields⟩
  case modeCodes => exact ⟨rfl, rfl⟩
  case resolutionCodes => exact ⟨rfl, rfl, rfl, rfl⟩
  case gainCodes => exact ⟨rfl, rfl, rfl, rfl⟩
  case multipliers => exact ⟨rfl, rfl, rfl, rfl⟩
  case fields =>
    exact ⟨extractLsb'_packConfig_sampleMode cfg, extractLsb'_packConfig_resolution cfg,
      extractLsb'_packConfig_gain cfg⟩

end Sys2Proof
end

section
/-! PROOFS. The Register Codec: the byte of `CFG.ENC` and the fields of `CFG.DEC` (R100, R101). -/

namespace Sys2Proof.Machine

/-! The byte keeps the whole record, so different operands give different bytes. -/

/-- R100: every combination of field values has a byte of its own. -/
theorem packConfig_injective : Function.Injective packConfig :=
  Function.LeftInverse.injective unpackConfig_packConfig

/-- R100: one next state has one list of operands. -/
theorem exec_cfgEnc_injective {s t : State} {r r' : Bool} {c c' : Channel} {m m' : SampleMode}
    {res res' : Resolution} {g g' : Gain} (h : exec (.cfgEnc r c m res g) s = .next t)
    (h' : exec (.cfgEnc r' c' m' res' g') s = .next t) :
    (⟨r, c, m, res, g⟩ : RegisterConfig) = ⟨r', c', m', res', g'⟩ := by
  rw [exec_cfgEnc, Host.Outcome.next.injEq] at h h'
  have hbyte := congrArg State.encOut (h.trans h'.symm)
  exact packConfig_injective (Option.some.inj hbyte)

/-- Settles O8: the next state holds the packed byte, and the byte determines the five operands. -/
theorem cfgEncGivesByte : Obligations.CfgEncGivesByte := by
  unfold Obligations.CfgEncGivesByte
  refine ⟨?byte, ?distinct⟩
  case byte => exact exec_cfgEnc
  case distinct =>
    intro s t r c m res g r' c' m' res' g' h h'
    simpa using exec_cfgEnc_injective h h'

/-! A field read by mask and shift, as R101 has it, is the field read by its bit positions, as `unpackConfig` has it. -/

/-- Masking and shifting down reads the `n` bits from `lo` on, where the mask shifted down is `n` ones. -/
theorem toNat_extractLsb'_eq_mask_shift {w lo n : Nat} {mask : BitVec w} (hmask : mask.toNat / 2 ^ lo = 2 ^ n - 1)
    (b : BitVec w) : (b.extractLsb' lo n).toNat = (b &&& mask).toNat / 2 ^ lo := by
  rw [← Nat.shiftRight_eq_div_pow] at hmask ⊢
  rw [BitVec.extractLsb'_toNat, BitVec.toNat_and, Nat.shiftRight_and_distrib, hmask, Nat.and_two_pow_sub_one_eq_mod]

/-- Settles O9: the next state holds the unpacked record, each of whose fields is read by its own mask and shift. -/
theorem cfgDecGivesFields : Obligations.CfgDecGivesFields := by
  unfold Obligations.CfgDecGivesFields
  intro s b
  refine ⟨unpackConfig b, exec_cfgDec s b, ?ready, ?channel, ?sampleMode, ?resolution, ?gain⟩
  case ready => exact beq_eq_decide (b >>> 7) 0#8
  case channel =>
    exact (congrArg BitVec.toNat (code_channelOfCode _)).trans (toNat_extractLsb'_eq_mask_shift (by decide) b)
  case sampleMode =>
    exact (congrArg BitVec.toNat (code_sampleModeOfCode _)).trans (toNat_extractLsb'_eq_mask_shift (by decide) b)
  case resolution =>
    exact (congrArg BitVec.toNat (code_resolutionOfCode _)).trans (toNat_extractLsb'_eq_mask_shift (by decide) b)
  case gain =>
    have hmask := toNat_extractLsb'_eq_mask_shift (lo := 0) (n := 2) (mask := 0x03#8) (by decide) b
    rw [Nat.pow_zero, Nat.div_one] at hmask
    exact (congrArg BitVec.toNat (code_gainOfCode _)).trans hmask

end Sys2Proof.Machine
end

section
/-! PROOFS. The delay of a Configuration: absolute, or nominal plus offset saturating at zero (R165). -/

namespace Sys2Proof.Machine

@[simp] theorem delayOf_absolute (ch : Channel) (res : Resolution) (g : Gain) (us : Micros) :
    delayOf ⟨ch, res, g, .absolute us⟩ = some us := rfl

/-- R165: `Int.toNat` is the saturation at zero, below zero and above it alike. -/
theorem delayOf_offset_of_lt (ch : Channel) {res : Resolution} (g : Gain) {d : Int}
    (h : (Config.nominalConversionTime res : Int) + d < 2 ^ 32) :
    delayOf ⟨ch, res, g, .offset d⟩ =
      some (BitVec.ofNat 32 ((Config.nominalConversionTime res : Int) + d).toNat) := by
  have hfits : ((Config.nominalConversionTime res : Int) + d).toNat < 2 ^ 32 := by omega
  exact if_pos hfits

/-- A sum from 0 up to the timer's 32 bits is kept whole by the delay's word. -/
theorem toNat_ofNat_toNat_of_nonneg_of_lt {t : Int} (h0 : 0 ≤ t) (h : t < 2 ^ 32) :
    ((BitVec.ofNat 32 t.toNat).toNat : Int) = t := by
  rw [BitVec.toNat_ofNat, Nat.mod_eq_of_lt (by omega), Int.toNat_of_nonneg h0]

/-- Settles O37: a sum that fits is the delay, where `Int.toNat` makes it 0 at and below zero and keeps it above. -/
theorem delayRule : Obligations.DelayRule := by
  unfold Obligations.DelayRule
  intro ch res g
  refine ⟨?absolute, ?saturated, ?sum⟩
  case absolute => exact delayOf_absolute ch res g
  case saturated =>
    intro d hd
    rw [delayOf_offset_of_lt ch g (by omega), Int.toNat_of_nonpos hd]
  case sum =>
    intro d h0 hd
    exact ⟨_, delayOf_offset_of_lt ch g hd, toNat_ofNat_toNat_of_nonneg_of_lt h0 hd⟩

end Sys2Proof.Machine
end

section
/-! PROOFS. `NotReady`: the readiness test of `SMP.DEC` comes before everything the data bytes decide (R201, R205). -/

namespace Sys2Proof.Machine

/-- R79, R121: the byte that step 1 chooses, with the selector written as its mask test. -/
theorem configByte_eq_ite (buf : ReadBuffer) :
    configByte buf = if buf.b3 &&& 0x0C#8 = 0x0C#8 then buf.b3 else buf.b2 := by
  simp only [configByte, selectsW3, beq_iff_eq]

/-- R122: a byte that is not ready ends the decode at step 2; a ready one is left to the range test, whose error is
another. -/
theorem smpDec_eq_notReady_iff (buf : ReadBuffer) :
    smpDec buf = .raised .notReady ↔ (unpackConfig (configByte buf)).ready = false := by
  simp only [smpDec]
  split
  case isTrue hready => exact iff_of_true rfl hready
  case isFalse hready =>
    refine iff_of_false ?_ hready
    split
    case isTrue => exact nofun
    case isFalse => exact nofun

/-- An instruction of the codec leaves unit SMP's output as it was. -/
theorem exec_smpOut_of_ne_smp {i : Instr} (hi : i.blockUnit ≠ .smp) (s : State) :
    ∃ t, exec i s = .next t ∧ t.smpOut = s.smpOut := by
  obtain ⟨-, _, henc⟩ | ⟨-, _, hdec⟩ | ⟨hsmp, -⟩ := exec_cases i s
  · exact ⟨_, henc, rfl⟩
  · exact ⟨_, hdec, rfl⟩
  · exact absurd hsmp hi

/-- Settles O18: whatever form the buffer selects, the decode answers `NotReady` exactly when the chosen byte unpacks to
not ready, which is its bit 7. -/
theorem notReadyExactly : Obligations.NotReadyExactly := by
  unfold Obligations.NotReadyExactly
  refine ⟨fun s buf => ⟨smpDec buf, exec_decodeBuffer buf s, ?notReady⟩, fun s i hi => exec_smpOut_of_ne_smp hi s⟩
  case notReady =>
    rw [smpDec_eq_notReady_iff, ← configByte_eq_ite, unpackConfig_ready, Bool.not_eq_false']

end Sys2Proof.Machine
end

section
/-! PROOFS. `BusError`: a failed bus operation ends the call in progress, and no operation of the block gives anybody a
result (R203). -/

namespace Sys2Proof.Machine

section taken

variable {s s' : State} {m : Micro}

theorem handle_of_takes (h : s.takes m s') : s'.handle = s.handle :=
  (congrArg State.handle (takes_frame h) :)

theorem trace_of_takes (h : s.takes m s') : s'.trace = s.trace :=
  (congrArg State.trace (takes_frame h) :)

theorem results_of_takes (h : s.takes m s') : s'.results = s.results :=
  (congrArg State.results (takes_frame h) :)

end taken

section failed

variable {s s' s'' : State} {h : Handle} {c : BusCause}

/-- R203: the bus fails a write that is asked for next, in the call in progress or as a line of the program. -/
theorem step_busWrite_of_answers_failed {b : Byte} (hh : s.handle = some h) (ht : s.takes (.act (.busWrite b)) s')
    (ha : s'.answersWrite (.failed c) s'') :
    step s = .next { s'' with
      task := [], collected := [], trace := s.trace ++ [.write h.address b]
      results := s.results ++ [⟨s'.sink, .error (.busError c)⟩] } := by
  have hrun : step s = .next (failCall (.busError c) { s'' with trace := s'.trace ++ [.write h.address b] }) :=
    (step_of_takes_act ht).trans (runBusWrite_of_answers b ((handle_of_takes ht).trans hh) ha)
  rw [hrun, answersWrite_frame ha, ← trace_of_takes ht, ← results_of_takes ht]
  rfl

/-- R203: the same for a read. What it leaves in the buffer is free (log entry 15). -/
theorem step_busRead_of_answers_failed (hh : s.handle = some h) (ht : s.takes (.act .busRead) s')
    (ha : s'.answersRead (.failed c) s'') :
    step s = .next { s'' with
      task := [], collected := [], trace := s.trace ++ [.read h.address]
      results := s.results ++ [⟨s'.sink, .error (.busError c)⟩]
      buf := s'.buf.fill (Config.failedReadBuffer s''.draws), draws := s''.draws + 1 } := by
  have hrun := (step_of_takes_act ht).trans (runBusRead_of_answers ((handle_of_takes ht).trans hh) ha)
  rw [hrun, answersRead_frame ha, ← trace_of_takes ht, ← results_of_takes ht]
  rfl

end failed

/-- R20: an instruction answers at an output port and gives nobody a result. -/
theorem exec_results (i : Instr) (s : State) : ∃ t, exec i s = .next t ∧ t.results = s.results := by
  obtain ⟨-, _, henc⟩ | ⟨-, _, hdec⟩ | ⟨-, _, hsmp⟩ := exec_cases i s
  · exact ⟨_, henc, rfl⟩
  · exact ⟨_, hdec, rfl⟩
  · exact ⟨_, hsmp, rfl⟩

/-- Settles O45: a failed write and a failed read each end the call with the cause as it stands, and the block delivers
nothing. -/
theorem busErrorEndsCall : Obligations.BusErrorEndsCall := by
  unfold Obligations.BusErrorEndsCall
  refine ⟨fun s s' s'' h c hh => ⟨?write, ?read⟩, exec_results⟩
  case write => exact fun b ht ha => step_busWrite_of_answers_failed hh ht ha
  case read => exact fun ht ha => ⟨_, _, step_busRead_of_answers_failed hh ht ha⟩

end Sys2Proof.Machine
end

section
/-! PROOFS. Decoder and encoder agree in both directions (30_encoding.md, R76 to R83). -/

namespace Sys2Proof

/-! The bytes of a data field, put together again. -/

theorem append_extractLsb'_bytes2 (d : BitVec 16) : d.extractLsb' 8 8 ++ d.extractLsb' 0 8 = d := by
  simpa using BitVec.extractLsb'_append_extractLsb'_eq_extractLsb' (x := d) (start₁ := 0) (len₁ := 8) (len₂ := 8)
    (start₂ := 8) rfl

theorem append_extractLsb'_bytes3 (d : BitVec 24) :
    d.extractLsb' 16 8 ++ d.extractLsb' 8 8 ++ d.extractLsb' 0 8 = d := by
  have hhi : d.extractLsb' 16 8 ++ d.extractLsb' 8 8 = d.extractLsb' 8 16 := by
    simpa using BitVec.extractLsb'_append_extractLsb'_eq_extractLsb' (x := d) (start₁ := 8) (len₁ := 8) (len₂ := 8)
      (start₂ := 16) rfl
  rw [hhi]
  simpa using BitVec.extractLsb'_append_extractLsb'_eq_extractLsb' (x := d) (start₁ := 0) (len₁ := 8) (len₂ := 16)
    (start₂ := 8) rfl

/-! The layout-W2 forms as one: the form is the resolution of the config byte (R82, rows 4 to 7). -/

/-- The layout-W2 form of a config record. -/
def narrowForm (d : BitVec 16) (cfg : RegisterConfig) (t : Byte) : Instr :=
  match cfg.resolution with
  | .r12 => .smpDecW2R12 d cfg.ready cfg.channel cfg.sampleMode cfg.gain t
  | .r14 => .smpDecW2R14 d cfg.ready cfg.channel cfg.sampleMode cfg.gain t
  | .r16 => .smpDecW2R16 d cfg.ready cfg.channel cfg.sampleMode cfg.gain t
  | .r18 => .smpDecW2R18 d cfg.ready cfg.channel cfg.sampleMode cfg.gain t

section narrowForm

variable (d : BitVec 16) (cfg : RegisterConfig) (t : Byte)

@[simp] theorem blockUnit_narrowForm : (narrowForm d cfg t).blockUnit = .smp := by
  obtain ⟨r, c, m, res, g⟩ := cfg
  cases res <;> rfl

@[simp] theorem wellFormed_narrowForm : (narrowForm d cfg t).wellFormed = tailWellFormed t := by
  obtain ⟨r, c, m, res, g⟩ := cfg
  cases res <;> rfl

@[simp] theorem encode_narrowForm : encode (narrowForm d cfg t) = (layoutW2 d cfg t).bytes := by
  obtain ⟨r, c, m, res, g⟩ := cfg
  cases res <;> rfl

end narrowForm

/-! What a buffer decodes to, by its selector (R79). -/

section decodeBuffer

variable {buf : ReadBuffer}

theorem decodeBuffer_of_selectsW3 (h : selectsW3 buf.b3 = true) :
    decodeBuffer buf = .smpDecW3 (buf.b0 ++ buf.b1 ++ buf.b2) (unpackConfig buf.b3).ready
      (unpackConfig buf.b3).channel (unpackConfig buf.b3).sampleMode (unpackConfig buf.b3).gain :=
  if_pos h

theorem decodeBuffer_of_not_selectsW3 (h : selectsW3 buf.b3 = false) :
    decodeBuffer buf = narrowForm (buf.b0 ++ buf.b1) (unpackConfig buf.b2) buf.b3 :=
  if_neg (Bool.not_eq_true _ ▸ h)

end decodeBuffer

/-- R77: layout W3 reads back as its operands. -/
theorem decodeBuffer_layoutW3 (d : BitVec 24) {cfg : RegisterConfig} (h : cfg.resolution = .r18) :
    decodeBuffer (layoutW3 d cfg) = .smpDecW3 d cfg.ready cfg.channel cfg.sampleMode cfg.gain := by
  rw [decodeBuffer_of_selectsW3 (by simp [layoutW3, h])]
  simp only [layoutW3, unpackConfig_packConfig, append_extractLsb'_bytes3]

/-- R78: layout W2 reads back as its operands, unless its tail selects layout W3. -/
theorem decodeBuffer_layoutW2 (d : BitVec 16) (cfg : RegisterConfig) {t : Byte} (h : tailWellFormed t = true) :
    decodeBuffer (layoutW2 d cfg t) = narrowForm d cfg t := by
  rw [decodeBuffer_of_not_selectsW3 (selectsW3_of_tailWellFormed t h)]
  simp only [layoutW2, unpackConfig_packConfig, append_extractLsb'_bytes2]

theorem decode_smp_bytes (buf : ReadBuffer) : decode .smp buf.bytes = .ok (decodeBuffer buf) := rfl

/-- R78: a layout-W2 row is read back as the instruction it was written from. -/
theorem decode_smp_narrow (d : BitVec 16) (cfg : RegisterConfig) {t : Byte} (h : tailWellFormed t = true) :
    decode .smp (layoutW2 d cfg t).bytes = .ok (narrowForm d cfg t) := by
  rw [decode_smp_bytes, decodeBuffer_layoutW2 d cfg h]

/-- Settles O6: a codec row by the round trip of the config byte, a decoder row by the round trip of its layout. -/
theorem decodeOfEncode : Obligations.DecodeOfEncode := by
  unfold Obligations.DecodeOfEncode
  intro i hi
  cases i with
  | cfgEnc r c m s g => exact congrArg (fun cfg => Except.ok (encInstr cfg)) (unpackConfig_packConfig ⟨r, c, m, s, g⟩)
  | cfgDec b => rfl
  | smpDecW3 d r c m g => exact congrArg Except.ok (decodeBuffer_layoutW3 d (cfg := ⟨r, c, m, .r18, g⟩) rfl)
  | smpDecW2R12 d r c m g t => exact decode_smp_narrow d ⟨r, c, m, .r12, g⟩ hi
  | smpDecW2R14 d r c m g t => exact decode_smp_narrow d ⟨r, c, m, .r14, g⟩ hi
  | smpDecW2R16 d r c m g t => exact decode_smp_narrow d ⟨r, c, m, .r16, g⟩ hi
  | smpDecW2R18 d r c m g t => exact decode_smp_narrow d ⟨r, c, m, .r18, g⟩ hi

/-- The one inversion of `decode`: each unit reads words of its port's length only. -/
theorem decode_cases {u : BlockUnit} {bytes : List Byte} {i : Instr} (h : decode u bytes = .ok i) :
    (u = .enc ∧ ∃ b, bytes = [b] ∧ i = encInstr (unpackConfig b)) ∨
    (u = .dec ∧ ∃ b, bytes = [b] ∧ i = .cfgDec b) ∨
    (u = .smp ∧ ∃ buf : ReadBuffer, bytes = buf.bytes ∧ i = decodeBuffer buf) := by
  unfold decode at h
  split at h
  · cases h; exact .inl ⟨rfl, _, rfl, rfl⟩
  · cases h; exact .inr (.inl ⟨rfl, _, rfl, rfl⟩)
  · cases h; exact .inr (.inr ⟨rfl, ⟨_, _, _, _⟩, rfl, rfl⟩)
  · cases h

/-- R76, R83: a buffer's instruction keeps every bit of it. -/
theorem encode_decodeBuffer (buf : ReadBuffer) :
    (decodeBuffer buf).wellFormed = true ∧ (decodeBuffer buf).blockUnit = .smp ∧
      encode (decodeBuffer buf) = buf.bytes := by
  cases hsel : selectsW3 buf.b3 with
  | true =>
    rw [decodeBuffer_of_selectsW3 hsel]
    exact ⟨rfl, rfl, congrArg ReadBuffer.bytes (Machine.layoutW3_decode buf hsel)⟩
  | false =>
    rw [decodeBuffer_of_not_selectsW3 hsel, wellFormed_narrowForm, blockUnit_narrowForm, encode_narrowForm,
      Machine.layoutW2_decode]
    exact ⟨tailWellFormed_of_not_selectsW3 buf.b3 hsel, rfl, rfl⟩

/-- Settles O7: by the unit whose decoder read the bytes. -/
theorem encodeOfDecode : Obligations.EncodeOfDecode := by
  unfold Obligations.EncodeOfDecode
  intro u bytes i h
  obtain ⟨rfl, b, rfl, rfl⟩ | ⟨rfl, b, rfl, rfl⟩ | ⟨rfl, buf, rfl, rfl⟩ := decode_cases h
  · exact ⟨rfl, rfl, congrArg (fun x => [x]) (packConfig_unpackConfig b)⟩
  · exact ⟨rfl, rfl, rfl⟩
  · exact encode_decodeBuffer buf

end Sys2Proof
end

section
/-! PROOFS. The fields of a byte as numbers, the operation map by its masks, and words written out from the patterns
(30_encoding.md, R70 to R82). -/

namespace Sys2Proof

/-! The fields of the config byte as numbers (R70). -/

theorem unpackConfig_ready_eq_decide (b : Byte) : (unpackConfig b).ready = decide (b.toNat < 0x80) := by
  have hbit : b.getLsbD 7 = b.toNat.testBit 7 := rfl
  have hb := b.isLt
  rw [unpackConfig_ready, hbit, Nat.testBit_eq_decide_div_mod_eq, ← decide_not, decide_eq_decide]
  omega

theorem toNat_code_resolution (b : Byte) : (unpackConfig b).resolution.code.toNat = b.toNat / 4 % 4 := by
  rw [unpackConfig_resolution, code_resolutionOfCode, BitVec.extractLsb'_toNat, Nat.shiftRight_eq_div_pow]

theorem toNat_code_gain (b : Byte) : (unpackConfig b).gain.code.toNat = b.toNat % 4 := by
  rw [unpackConfig_gain, code_gainOfCode, BitVec.extractLsb'_toNat, Nat.shiftRight_zero]

/-- R79: the selector is the number 3 in bits 3:2. -/
theorem selectsW3_eq_decide (b : Byte) : selectsW3 b = decide (b.toNat / 4 % 4 = 3) := by
  rw [selectsW3_iff_r18, ← toNat_code_resolution, decide_eq_decide]
  cases (unpackConfig b).resolution <;> decide

/-- R70, R100: the packed byte as the sum of its fields in their places. -/
theorem toNat_packConfig (cfg : RegisterConfig) : (packConfig cfg).toNat =
    0x80 * (1 - cfg.ready.toNat) + 0x20 * cfg.channel.code.toNat + 0x10 * cfg.sampleMode.code.toNat +
      0x04 * cfg.resolution.code.toNat + cfg.gain.code.toNat := by
  obtain ⟨r, c, m, res, g⟩ := cfg
  have hr : (nrdyBit r).toNat = 1 - r.toNat := by cases r <;> rfl
  have hc := c.code.isLt
  have hm := m.code.isLt
  have hres := res.code.isLt
  have hg := g.code.isLt
  simp only [packConfig, BitVec.toNat_append]
  rw [← Nat.shiftLeft_add_eq_or_of_lt hg, ← Nat.shiftLeft_add_eq_or_of_lt hres, ← Nat.shiftLeft_add_eq_or_of_lt hm,
    ← Nat.shiftLeft_add_eq_or_of_lt hc, hr]
  simp only [Nat.shiftLeft_eq]
  omega

/-! A mask of `n` neighbouring bits from `k` on, as in the operation map and in the codec's laws. -/

theorem and_ones_mul_two_pow (w k n : Nat) : w &&& (2 ^ n - 1) * 2 ^ k = w / 2 ^ k % 2 ^ n * 2 ^ k := by
  rw [← Nat.shiftRight_eq_div_pow, ← Nat.and_two_pow_sub_one_eq_mod, ← Nat.shiftLeft_eq, ← Nat.shiftLeft_eq]
  apply Nat.eq_of_testBit_eq
  intro i
  simp only [Nat.testBit_and, Nat.testBit_shiftLeft, Nat.testBit_shiftRight]
  by_cases hi : k ≤ i
  · simp [hi]
  · simp [hi]

/-- R79, D12: the mask of row 3 of the operation map is the selector. -/
theorem and_0xC_eq_iff (w : Nat) : w &&& 0x0000000C = 0x0000000C ↔ w / 4 % 4 = 3 := by
  have hmask : w &&& 0x0000000C = w / 2 ^ 2 % 2 ^ 2 * 2 ^ 2 := and_ones_mul_two_pow w 2 2
  omega

/-- The mask of rows 4 to 7 is the resolution of the byte at index 2. -/
theorem and_0xC00_eq (w : Nat) : w &&& 0x00000C00 = w / 2 ^ 10 % 2 ^ 2 * 2 ^ 10 :=
  and_ones_mul_two_pow w 10 2

/-! The bytes of a table word, `buf[0]` in bits 31:24 (D12). -/

section bufferOfWord

variable (w : Nat)

theorem bufferOfWord_b3 : (bufferOfWord w).b3 = BitVec.ofNat 8 w := by
  apply BitVec.eq_of_toNat_eq
  simp [bufferOfWord, BitVec.extractLsb'_toNat]

theorem bufferOfWord_b2 : (bufferOfWord w).b2 = BitVec.ofNat 8 (w / 2 ^ 8) := by
  apply BitVec.eq_of_toNat_eq
  simp only [bufferOfWord, BitVec.extractLsb'_toNat, BitVec.toNat_ofNat, Nat.shiftRight_eq_div_pow]
  omega

theorem bufferOfWord_data2 : (bufferOfWord w).b0 ++ (bufferOfWord w).b1 = BitVec.ofNat 16 (w / 2 ^ 16) := by
  apply BitVec.eq_of_toNat_eq
  rw [BitVec.toNat_append, ← Nat.shiftLeft_add_eq_or_of_lt (BitVec.isLt _), Nat.shiftLeft_eq]
  simp only [bufferOfWord, BitVec.extractLsb'_toNat, BitVec.toNat_ofNat, Nat.shiftRight_eq_div_pow]
  omega

theorem bufferOfWord_data3 :
    (bufferOfWord w).b0 ++ (bufferOfWord w).b1 ++ (bufferOfWord w).b2 = BitVec.ofNat 24 (w / 2 ^ 8) := by
  rw [bufferOfWord_data2, bufferOfWord_b2]
  apply BitVec.eq_of_toNat_eq
  rw [BitVec.toNat_append, ← Nat.shiftLeft_add_eq_or_of_lt (BitVec.isLt _), Nat.shiftLeft_eq]
  simp only [BitVec.toNat_ofNat]
  omega

end bufferOfWord

/-! The fields of a config byte that is given as a number. -/

theorem unpackConfig_ofNat_ready (n : Nat) : (unpackConfig (BitVec.ofNat 8 n)).ready = !n.testBit 7 := by
  rw [unpackConfig_ready, BitVec.getLsbD_ofNat]
  simp

theorem unpackConfig_ofNat_gain (n : Nat) : (unpackConfig (BitVec.ofNat 8 n)).gain = gainOfCode (BitVec.ofNat 2 n) := by
  rw [unpackConfig_gain]
  congr 1
  apply BitVec.eq_of_toNat_eq
  simp only [BitVec.extractLsb'_toNat, BitVec.toNat_ofNat, Nat.shiftRight_zero]
  omega

/-- R82, rows 4 to 7: the form by the code of the resolution, the last row taking what the others leave. -/
theorem narrowForm_eq_ite (d : BitVec 16) (cfg : RegisterConfig) (t : Byte) : narrowForm d cfg t =
    if cfg.resolution.code.toNat = 0 then .smpDecW2R12 d cfg.ready cfg.channel cfg.sampleMode cfg.gain t
    else if cfg.resolution.code.toNat = 1 then .smpDecW2R14 d cfg.ready cfg.channel cfg.sampleMode cfg.gain t
    else if cfg.resolution.code.toNat = 2 then .smpDecW2R16 d cfg.ready cfg.channel cfg.sampleMode cfg.gain t
    else .smpDecW2R18 d cfg.ready cfg.channel cfg.sampleMode cfg.gain t := by
  obtain ⟨r, c, m, res, g⟩ := cfg
  cases res <;> rfl

theorem decodeTableWord_32 (w : Nat) : decodeTableWord 32 w = some (decodeBuffer (bufferOfWord w)) := rfl

/-- Row 3 of the operation map. -/
theorem decodeTableWord_of_w3 {w : Nat} (h : w &&& 0x0000000C = 0x0000000C) :
    ∃ c m, decodeTableWord 32 w = some (.smpDecW3 (BitVec.ofNat 24 (w / 2 ^ 8)) (!w.testBit 7) c m
      (gainOfCode (BitVec.ofNat 2 w))) := by
  have hsel : selectsW3 (bufferOfWord w).b3 = true := by
    rw [and_0xC_eq_iff] at h
    rw [bufferOfWord_b3, selectsW3_eq_decide, BitVec.toNat_ofNat, decide_eq_true_eq]
    omega
  rw [decodeTableWord_32, decodeBuffer_of_selectsW3 hsel, bufferOfWord_data3, bufferOfWord_b3,
    unpackConfig_ofNat_ready, unpackConfig_ofNat_gain]
  exact ⟨_, _, rfl⟩

/-- Rows 4 to 7 of the operation map. -/
theorem decodeTableWord_of_not_w3 {w : Nat} (h : w &&& 0x0000000C ≠ 0x0000000C) :
    ∃ cfg : RegisterConfig,
      decodeTableWord 32 w = some (narrowForm (BitVec.ofNat 16 (w / 2 ^ 16)) cfg (BitVec.ofNat 8 w)) ∧
      cfg.ready = !w.testBit 15 ∧ cfg.gain = gainOfCode (BitVec.ofNat 2 (w / 2 ^ 8)) ∧
      cfg.resolution.code.toNat = w / 2 ^ 10 % 4 := by
  have hsel : selectsW3 (bufferOfWord w).b3 = false := by
    rw [Ne, and_0xC_eq_iff] at h
    rw [bufferOfWord_b3, selectsW3_eq_decide, BitVec.toNat_ofNat, decide_eq_false_iff_not]
    omega
  refine ⟨unpackConfig (BitVec.ofNat 8 (w / 2 ^ 8)), ?decode, ?ready, unpackConfig_ofNat_gain _, ?resolution⟩
  case decode =>
    rw [decodeTableWord_32, decodeBuffer_of_not_selectsW3 hsel, bufferOfWord_data2, bufferOfWord_b2, bufferOfWord_b3]
  case ready => rw [unpackConfig_ofNat_ready, Nat.testBit_div_two_pow]
  case resolution =>
    rw [toNat_code_resolution, BitVec.toNat_ofNat]
    omega

/-- Settles O5: rows 1 and 2 by the unit, row 3 by its mask, rows 4 to 7 by the two bits that their mask leaves. -/
theorem operationMap : Obligations.OperationMap := by
  unfold Obligations.OperationMap
  refine ⟨fun b => ⟨_, _, _, _, _, rfl⟩, fun b => rfl, fun w _ => ?words⟩
  case words =>
    split
    case isTrue h => exact decodeTableWord_of_w3 h
    case isFalse h =>
      obtain ⟨cfg, hdecode, hready, hgain, hres⟩ := decodeTableWord_of_not_w3 h
      have hmask := and_0xC00_eq w
      have h12 : cfg.resolution.code.toNat = 0 ↔ w &&& 0x00000C00 = 0x00000000 := by omega
      have h14 : cfg.resolution.code.toNat = 1 ↔ w &&& 0x00000C00 = 0x00000400 := by omega
      have h16 : cfg.resolution.code.toNat = 2 ↔ w &&& 0x00000C00 = 0x00000800 := by omega
      refine ⟨cfg.channel, cfg.sampleMode, hdecode.trans (congrArg some ?_)⟩
      rw [narrowForm_eq_ite, hready, hgain]
      simp only [h12, h14, h16]

/-- Settles O2: the channel's codes read back, and bits 6:5 and 7 of the packed byte are the channel's code and the
complement of `ready`. -/
theorem channelAndReadyBits : Obligations.ChannelAndReadyBits := by
  unfold Obligations.ChannelAndReadyBits
  refine ⟨?codes, channelOfCode_code, fun cfg => ⟨?channelBits, ?readyBit⟩, unpackConfig_ready⟩
  case codes => exact ⟨rfl, rfl, rfl, rfl⟩
  case channelBits =>
    exact (code_channelOfCode _).symm.trans (congrArg (·.channel.code) (unpackConfig_packConfig cfg))
  case readyBit =>
    have hready := unpackConfig_ready (packConfig cfg)
    rw [unpackConfig_packConfig] at hready
    rw [hready, Bool.not_not]

/-- Settles O4: each unit's decoder evaluated on its written-out word. -/
theorem writtenWordsDecode : Obligations.WrittenWordsDecode := by
  unfold Obligations.WrittenWordsDecode
  refine ⟨?enc, rfl, ?w3, ?w2⟩
  case enc => decide
  case w3 => decide
  case w2 => decide

end Sys2Proof
end

section
/-! PROOFS. The laws of the Register Codec: round trips and the independence of the fields (R102 to R104). -/

namespace Sys2Proof.Machine

/-- Settles O10: the byte of a record unpacks to the record. -/
theorem recordRoundTrip : Obligations.RecordRoundTrip := by
  unfold Obligations.RecordRoundTrip
  intro s cfg
  exact ⟨packConfig cfg, _, _, exec_cfgEnc .., rfl, exec_cfgDec .., congrArg some (unpackConfig_packConfig cfg)⟩

/-- Settles O11: the record of a byte packs to the byte, and each record is that of its own byte. -/
theorem byteRoundTrip : Obligations.ByteRoundTrip := by
  unfold Obligations.ByteRoundTrip
  refine ⟨fun s b => ?byte, fun s cfg => ?record⟩
  case byte =>
    exact ⟨unpackConfig b, _, _, exec_cfgDec .., rfl, exec_cfgEnc .., congrArg some (packConfig_unpackConfig b)⟩
  case record => exact ⟨packConfig cfg, _, exec_cfgDec .., congrArg some (unpackConfig_packConfig cfg)⟩

/-- A mask of `n` bits from `lo` on leaves them in their place. -/
theorem toNat_and_mask {lo n : Nat} {mask : Byte} (hmask : mask.toNat = (2 ^ n - 1) * 2 ^ lo) (b : Byte) :
    (b &&& mask).toNat = b.toNat / 2 ^ lo % 2 ^ n * 2 ^ lo := by
  rw [BitVec.toNat_and, hmask, and_ones_mul_two_pow]

/-- Settles O12: the packed byte is the sum of its fields in their places, of which a field's mask leaves the one. -/
theorem fieldIndependence : Obligations.FieldIndependence := by
  unfold Obligations.FieldIndependence
  intro s r c m res g
  have hsum := toNat_packConfig ⟨r, c, m, res, g⟩
  have hr := r.toNat_le
  have hc := c.code.isLt
  have hm := m.code.isLt
  have hres := res.code.isLt
  have hg := g.code.isLt
  simp only at hsum
  refine ⟨_, exec_cfgEnc .., hsum, (toNat_and_mask (lo := 7) (n := 1) rfl _).trans ?ready,
    (toNat_and_mask (lo := 5) (n := 2) rfl _).trans ?channel,
    (toNat_and_mask (lo := 4) (n := 1) rfl _).trans ?sampleMode,
    (toNat_and_mask (lo := 2) (n := 2) rfl _).trans ?resolution,
    (toNat_and_mask (lo := 0) (n := 2) rfl _).trans ?gain⟩
  all_goals omega

/-- Settles O3: the tables' rows. -/
theorem attributeTables : Obligations.AttributeTables := by
  unfold Obligations.AttributeTables
  refine ⟨?gains, ?r12, ?r14, ?r16, ?r18⟩
  case gains => exact ⟨rfl, rfl, rfl, rfl⟩
  all_goals exact ⟨rfl, rfl, rfl, rfl, rfl, rfl⟩

end Sys2Proof.Machine
end

section
/-! PROOFS. The code of a sample in arithmetic terms, and no named width overflows (41_sample_decoder.md, R124, R127,
R137). -/

namespace Sys2Proof.Machine

theorem arithCode_of_testBit {b raw : Nat} (h : raw.testBit b = true) :
    arithCode (b + 1) raw = (raw % 2 ^ b : Nat) - 2 ^ b :=
  if_pos h

theorem arithCode_of_not_testBit {b raw : Nat} (h : raw.testBit b = false) : arithCode (b + 1) raw = raw :=
  if_neg (Bool.not_eq_true _ ▸ h)

/-- R124 with the sign bit as a number. -/
theorem arithCode_eq_ite (b raw : Nat) : arithCode b raw =
    if raw / 2 ^ (b - 1) % 2 = 1 then ((raw % 2 ^ (b - 1) : Nat) : Int) - 2 ^ (b - 1) else raw :=
  if_congr (by rw [Nat.testBit_eq_decide_div_mod_eq, decide_eq_true_eq]) rfl rfl

/-- R124: or-ing the mask in gives the code in arithmetic terms. -/
theorem signExtend_toInt (res : Resolution) {raw : Word32} (hraw : raw.toNat < 2 ^ 24) :
    (signExtend res raw).toInt = arithCode (bits res) raw.toNat := by
  have htest : raw.getLsbD (bits res - 1) = raw.toNat.testBit (bits res - 1) := rfl
  unfold signExtend arithCode
  cases hbit : raw.toNat.testBit (bits res - 1) with
  | true =>
    rw [if_pos ((signMask_test res raw).2 (htest.trans hbit)), if_pos rfl, or_extMask_toInt]
    rw [Nat.testBit_eq_decide_div_mod_eq, decide_eq_true_eq] at hbit
    cases res <;> simp only [bits] at hbit ⊢ <;> omega
  | false =>
    have hclear : ¬ (raw &&& signMask res ≠ 0#32) := by
      rw [signMask_test, htest, hbit]
      exact Bool.false_ne_true
    rw [if_neg hclear, if_neg Bool.false_ne_true, BitVec.toInt_eq_toNat_cond, if_pos (by omega)]

theorem sampleCode_eq_arithCode (buf : ReadBuffer) (res : Resolution) :
    sampleCode buf res = arithCode (bits res) (rawCode buf res).toNat :=
  signExtend_toInt res (rawCode_lt buf res)

theorem extMask_eq (res : Resolution) : extMask res = 0xFFFFFFFF#32 <<< bits res := by cases res <;> rfl

/-- The code of the raw value's low bits alone, when no bit above the sign bit counts. -/
theorem arithCode_eq_toInt_setWidth (res : Resolution) {raw : Word32}
    (h : raw.toNat < 2 ^ (bits res - 1) ∨ raw.getLsbD (bits res - 1) = true) :
    arithCode (bits res) raw.toNat = (raw.setWidth (bits res)).toInt := by
  have htest : raw.getLsbD (bits res - 1) = raw.toNat.testBit (bits res - 1) := rfl
  rw [htest, Nat.testBit_eq_decide_div_mod_eq, decide_eq_true_eq] at h
  rw [BitVec.toInt_eq_toNat_cond, BitVec.toNat_setWidth, arithCode_eq_ite]
  cases res <;> simp only [bits] at h ⊢ <;> omega

/-- Settles O16: the extension mask is the ones from place `bits` on; or-ing it in is R124's case split; and that is the
sign extension of the low bits, since both are the same integer. -/
theorem signExtension : Obligations.SignExtension := by
  unfold Obligations.SignExtension
  intro res raw hraw
  refine ⟨?masks, signExtend_toInt res hraw, fun h => BitVec.eq_of_toInt_eq ?extension⟩
  case masks => simp only [signExtend, signMask_test, extMask_eq]
  case extension =>
    have hwidth : bits res ≤ 32 := by cases res <;> decide
    rw [signExtend_toInt res hraw, BitVec.toInt_signExtend_of_le hwidth, arithCode_eq_toInt_setWidth res h]

/-- A layout of two data bytes fills 16 bits. -/
theorem rawCode_lt_of_nbytes {res : Resolution} (h : nbytes res ≠ 3) (buf : ReadBuffer) :
    (rawCode buf res).toNat < 2 ^ 16 := by
  have h0 := buf.b0.isLt
  have h1 := buf.b1.isLt
  rw [rawCode_toNat, if_neg h]
  omega

/-- R127: the exact range of codes over all buffers. The greatest is 24 raw bits of which only the sign bit is clear. -/
theorem sampleCode_mem_range (buf : ReadBuffer) (res : Resolution) :
    -131072 ≤ sampleCode buf res ∧ sampleCode buf res ≤ 16646143 := by
  refine ⟨(sampleCode_range buf res).1, ?_⟩
  have hlt := rawCode_lt buf res
  have hnarrow := rawCode_lt_of_nbytes (res := res) (buf := buf)
  rw [sampleCode_eq_arithCode, arithCode_eq_ite]
  cases res <;> simp only [bits, nbytes] at hnarrow ⊢ <;> omega

/-- R125: a valid code is below the sign bit's weight at 18 bits. -/
theorem minCode_maxCode_range (res : Resolution) : -131072 ≤ minCode res ∧ maxCode res ≤ 131071 := by
  cases res <;> decide

/-- Settles O22: the range of codes, and a product of factors below 2^17, 2^12 and 2^34. -/
theorem noOverflow : Obligations.NoOverflow := by
  unfold Obligations.NoOverflow
  refine fun buf res => ⟨sampleCode_mem_range buf res, fun scale hscale hmin hmax => ?product⟩
  case product =>
    obtain ⟨hlow, hhigh⟩ := minCode_maxCode_range res
    generalize sampleCode buf res = code at hmin hmax ⊢
    have hs : (scale : Int) < 2 ^ 34 := by exact_mod_cast hscale
    have hs0 : (0 : Int) ≤ scale := Int.natCast_nonneg scale
    constructor
    · nlinarith
    · nlinarith

end Sys2Proof.Machine
end

section
/-! PROOFS. `SMP.DEC` is the closed form on every buffer, and the closed form's three results (41_sample_decoder.md,
R120 to R127, R130 to R132, R201, R202). -/

namespace Sys2Proof.Machine

/-! ## The closed form -/

section closedForm

variable {s g raw : Nat} {ready : Bool}

/-- The closed form by the resolution's own tables. -/
theorem closedForm_code (res : Resolution) (g raw : Nat) (ready : Bool) :
    closedForm res.code.toNat g raw ready =
      if ready = false then .raised .notReady
      else if codeValid res (arithCode (bits res) raw) then .ok ⟨arithCode (bits res) raw * 2 ^ (21 - bits res - g)⟩
      else .raised (illegalCode res (arithCode (bits res) raw)) := by
  have hexp : 9 - 2 * res.code.toNat - g = 21 - bits res - g := by rw [bits_code]; omega
  have hvalid : codeValid res (arithCode (bits res) raw) = true ↔
      ¬ (arithCode (bits res) raw ≤ minCode res ∨ arithCode (bits res) raw ≥ maxCode res) := by
    rw [codeValid, Bool.and_eq_true, decide_eq_true_eq, decide_eq_true_eq]
    omega
  simp only [closedForm, ← bits_code, hexp, hvalid, illegalCode, minCode_eq, maxCode_eq, ite_not]

theorem closedForm_eq_ok_iff {v : Voltage} : closedForm s g raw ready = .ok v ↔
    ready = true ∧ -(2 ^ (11 + 2 * s)) < arithCode (12 + 2 * s) raw ∧
      arithCode (12 + 2 * s) raw < 2 ^ (11 + 2 * s) - 1 ∧ v = ⟨arithCode (12 + 2 * s) raw * 2 ^ (9 - 2 * s - g)⟩ := by
  have hb : 12 + 2 * s - 1 = 11 + 2 * s := by omega
  cases ready with
  | false => simp [closedForm]
  | true =>
    simp only [closedForm, hb, Bool.true_eq_false, if_false, true_and]
    split
    case isTrue h =>
      refine iff_of_false nofun ?_
      rintro ⟨hlow, hhigh, -⟩
      omega
    case isFalse h =>
      rw [not_or] at h
      constructor
      · intro hv
        cases hv
        exact ⟨by omega, by omega, rfl⟩
      · rintro ⟨-, -, rfl⟩
        rfl

theorem closedForm_eq_illegalValue_iff {value mn mx : Int} :
    closedForm s g raw ready = .raised (.illegalValue value mn mx) ↔
      ready = true ∧ value = arithCode (12 + 2 * s) raw ∧ mn = -(2 ^ (11 + 2 * s)) ∧ mx = 2 ^ (11 + 2 * s) - 1 ∧
        (value ≤ mn ∨ mx ≤ value) := by
  have hb : 12 + 2 * s - 1 = 11 + 2 * s := by omega
  cases ready with
  | false => simp [closedForm]
  | true =>
    simp only [closedForm, hb, Bool.true_eq_false, if_false, true_and]
    split
    case isTrue h =>
      constructor
      · intro hv
        cases hv
        exact ⟨rfl, rfl, rfl, h⟩
      · rintro ⟨rfl, rfl, rfl, -⟩
        rfl
    case isFalse h =>
      refine iff_of_false nofun ?_
      rintro ⟨rfl, rfl, rfl, hout⟩
      exact h hout

/-- The closed form reads the raw value only through its code. -/
theorem closedForm_congr {raw' : Nat} (h : arithCode (12 + 2 * s) raw = arithCode (12 + 2 * s) raw') :
    closedForm s g raw ready = closedForm s g raw' ready := by
  simp only [closedForm, h]

/-- R132, R35: the voltage of the closed form in millivolts. -/
theorem mV_of_closedForm_eq_ok {v : Voltage} (hexp : 2 * s + g ≤ 9) (h : closedForm s g raw ready = .ok v) :
    v.mV = (arithCode (12 + 2 * s) raw : Rat) * 2 ^ (-2 * (s : Int) - (g : Int)) := by
  obtain ⟨-, -, -, rfl⟩ := closedForm_eq_ok_iff.1 h
  have hpow : (2 : Rat) ^ (9 - 2 * s - g) = 2 ^ (-2 * (s : Int) - (g : Int)) * 512 := by
    have h512 : (512 : Rat) = 2 ^ (9 : Int) := by norm_num
    rw [h512, ← zpow_add₀ two_ne_zero, ← zpow_natCast]
    congr 1
    omega
  rw [Voltage.mV, div_eq_iff (by norm_num)]
  push_cast
  rw [hpow, mul_assoc]

end closedForm

/-! ## The decoder -/

/-- R120: the six steps are the closed form of the chosen config byte's fields. -/
theorem smpDec_eq_closedForm (buf : ReadBuffer) :
    smpDec buf = closedForm (unpackConfig (configByte buf)).resolution.code.toNat
      (unpackConfig (configByte buf)).gain.code.toNat
      (rawCode buf (unpackConfig (configByte buf)).resolution).toNat (unpackConfig (configByte buf)).ready := by
  rw [closedForm_code, ← sampleCode_eq_arithCode, ← gainExp_code]
  rfl

theorem smpDec_eq_ok_iff {buf : ReadBuffer} {v : Voltage} : smpDec buf = .ok v ↔
    (unpackConfig (configByte buf)).ready = true ∧
      codeValid (unpackConfig (configByte buf)).resolution
        (sampleCode buf (unpackConfig (configByte buf)).resolution) = true ∧
      v = scale (sampleCode buf (unpackConfig (configByte buf)).resolution)
        (unpackConfig (configByte buf)).resolution (unpackConfig (configByte buf)).gain := by
  simp only [smpDec]
  generalize unpackConfig (configByte buf) = cfg
  split
  case isTrue hready => simp [hready]
  case isFalse hready =>
    rw [Bool.not_eq_false] at hready
    split
    case isTrue hvalid => simp [hready, hvalid, eq_comm]
    case isFalse hvalid => simp [hvalid]

/-- R123: the raw value by the config byte's two resolution bits. -/
theorem rawCode_toNat_eq_ite (buf : ReadBuffer) (res : Resolution) : (rawCode buf res).toNat =
    if res.code.toNat = 3 then buf.b0.toNat * 2 ^ 16 + buf.b1.toNat * 2 ^ 8 + buf.b2.toNat
    else buf.b0.toNat * 2 ^ 8 + buf.b1.toNat := by
  have hwide : nbytes res = 3 ↔ res.code.toNat = 3 := by cases res <;> decide
  rw [rawCode_toNat]
  simp only [hwide]
  split <;> omega

/-- Two next states that differ at unit SMP's output only are one when the outputs are. -/
theorem next_smpOut_eq_iff {s : State} {r r' : SmpResult} :
    (Host.Outcome.next { s with smpOut := some r } : Host.Outcome State Fault Refusal) =
      .next { s with smpOut := some r' } ↔ r = r' := by
  simp

/-- Settles O17: the instruction a buffer selects is `SMP.DEC` on it, which is the closed form. -/
theorem smpDecOnEveryBuffer : Obligations.SmpDecOnEveryBuffer := by
  unfold Obligations.SmpDecOnEveryBuffer
  intro s buf
  rw [exec_decodeBuffer, smpDec_eq_closedForm, rawCode_toNat_eq_ite, toNat_code_resolution, toNat_code_gain,
    unpackConfig_ready_eq_decide, configByte_eq_ite]

/-- Settles O19: by the closed form's `IllegalValue`; an instruction of the codec leaves unit SMP's output. -/
theorem illegalValueExactly : Obligations.IllegalValueExactly := by
  unfold Obligations.IllegalValueExactly
  refine ⟨fun s buf value mn mx => ?illegal, fun s i hi => exec_smpOut_of_ne_smp hi s⟩
  case illegal =>
    intro c k raw
    rw [smpDecOnEveryBuffer s buf, next_smpOut_eq_iff, closedForm_eq_illegalValue_iff, ← unpackConfig_ready_eq_decide,
      unpackConfig_ready, Bool.not_eq_true']

/-- R126: the shift by `21 − bits − g` is the division by `2^bits` and the gain's multiplier, in units of 2^−9 mV. -/
theorem mV_scale (code : Int) (res : Resolution) (gain : Gain) :
    (scale code res gain).mV = (code : Rat) * 2 * 2048 / 2 ^ bits res / (multiplier gain : Rat) := by
  have hexp : bits res + gainExp gain + (21 - bits res - gainExp gain) = 21 := by cases res <;> cases gain <;> rfl
  have hpow : (2 : Rat) ^ bits res * 2 ^ gainExp gain * 2 ^ (21 - bits res - gainExp gain) = 2 ^ 21 := by
    rw [← pow_add, ← pow_add, hexp]
  rw [Voltage.mV, scale, multiplier_eq]
  push_cast
  field_simp
  linear_combination (code : Rat) * hpow

theorem codeValid_eq_true_iff {res : Resolution} {code : Int} :
    codeValid res code = true ↔ minCode res < code ∧ code < maxCode res := by
  rw [codeValid, Bool.and_eq_true, decide_eq_true_eq, decide_eq_true_eq]

/-- Settles O20: the decode gives a voltage exactly when ready and in range, and it is the scaled code. -/
theorem voltageFormula : Obligations.VoltageFormula := by
  unfold Obligations.VoltageFormula
  refine fun s buf => ⟨smpDec buf, exec_decodeBuffer buf s, ?given, fun v hv => ?formula⟩
  case given => simp only [smpDec_eq_ok_iff, codeValid_eq_true_iff, exists_and_left, exists_eq, and_true]
  case formula =>
    obtain ⟨-, -, rfl⟩ := smpDec_eq_ok_iff.1 hv
    exact mV_scale ..

/-! ## The raw value of each layout (R77, R78, R135) -/

theorem code_toNat_eq_three_iff {res : Resolution} : res.code.toNat = 3 ↔ res = .r18 := by cases res <;> decide

theorem bits_le_16_iff {res : Resolution} : bits res ≤ 16 ↔ res ≠ .r18 := by cases res <;> decide

section layouts

variable {cfg : RegisterConfig}

theorem configByte_layoutW3 (d : BitVec 24) (h : cfg.resolution = .r18) :
    configByte (layoutW3 d cfg) = packConfig cfg :=
  if_pos (by simp [layoutW3, h])

theorem configByte_layoutW2 (d : BitVec 16) (cfg : RegisterConfig) {t : Byte} (ht : tailWellFormed t = true) :
    configByte (layoutW2 d cfg t) = packConfig cfg :=
  if_neg (by simp [layoutW2, selectsW3_of_tailWellFormed t ht])

theorem rawCode_layoutW3 (d : BitVec 24) (cfg : RegisterConfig) : (rawCode (layoutW3 d cfg) .r18).toNat = d.toNat := by
  have hd := d.isLt
  rw [rawCode_toNat_eq_ite, if_pos (by decide)]
  simp only [layoutW3, BitVec.extractLsb'_toNat, Nat.shiftRight_eq_div_pow]
  omega

theorem rawCode_layoutW2 (d : BitVec 16) (cfg : RegisterConfig) (t : Byte) {res : Resolution} (h : res ≠ .r18) :
    (rawCode (layoutW2 d cfg t) res).toNat = d.toNat := by
  have hd := d.isLt
  rw [rawCode_toNat_eq_ite, if_neg (mt code_toNat_eq_three_iff.1 h)]
  simp only [layoutW2, BitVec.extractLsb'_toNat, Nat.shiftRight_eq_div_pow]
  omega

theorem rawCode_layoutW2_r18 (d : BitVec 16) (cfg : RegisterConfig) (t : Byte) :
    (rawCode (layoutW2 d cfg t) .r18).toNat = d.toNat * 2 ^ 8 + (packConfig cfg).toNat := by
  have hd := d.isLt
  rw [rawCode_toNat_eq_ite, if_pos (by decide)]
  simp only [layoutW2, BitVec.extractLsb'_toNat, Nat.shiftRight_eq_div_pow]
  omega

/-- R130. -/
theorem smpDec_layoutW3 (d : BitVec 24) (h : cfg.resolution = .r18) :
    smpDec (layoutW3 d cfg) = closedForm 3 cfg.gain.code.toNat d.toNat cfg.ready := by
  rw [smpDec_eq_closedForm, configByte_layoutW3 d h, unpackConfig_packConfig, h, rawCode_layoutW3]
  rfl

/-- R131. -/
theorem smpDec_layoutW2 (d : BitVec 16) {t : Byte} (ht : tailWellFormed t = true) (h : cfg.resolution ≠ .r18) :
    smpDec (layoutW2 d cfg t) = closedForm cfg.resolution.code.toNat cfg.gain.code.toNat d.toNat cfg.ready := by
  rw [smpDec_eq_closedForm, configByte_layoutW2 d cfg ht, unpackConfig_packConfig, rawCode_layoutW2 d cfg t h]

/-- R135: the config byte is data as well. -/
theorem smpDec_layoutW2_r18 (d : BitVec 16) {t : Byte} (ht : tailWellFormed t = true) (h : cfg.resolution = .r18) :
    smpDec (layoutW2 d cfg t) =
      closedForm 3 cfg.gain.code.toNat (d.toNat * 2 ^ 8 + (packConfig cfg).toNat) cfg.ready := by
  rw [smpDec_eq_closedForm, configByte_layoutW2 d cfg ht, unpackConfig_packConfig, h, rawCode_layoutW2_r18]
  rfl

end layouts

/-! ## The voltages that some buffer gives (R132) -/

theorem scale_eq (code : Int) (res : Resolution) (gain : Gain) :
    scale code res gain = ⟨code * 2 ^ (9 - 2 * res.code.toNat - gain.code.toNat)⟩ := by
  have hexp : 21 - bits res - gainExp gain = 9 - 2 * res.code.toNat - gain.code.toNat := by
    rw [bits_code, gainExp_code]
    omega
  rw [scale, hexp]

/-- A valid code is the code of its low 24 bits. -/
theorem arithCode_toNat_ofInt_24 {res : Resolution} {code : Int} (hmin : minCode res < code)
    (hmax : code < maxCode res) :
    arithCode (bits res) (BitVec.ofInt 24 code).toNat = code := by
  rw [arithCode_eq_ite, BitVec.toNat_ofInt]
  cases res <;> simp only [bits, minCode, maxCode] at hmin hmax ⊢ <;> omega

/-- A valid code of at most 16 bits is the code of its low 16 bits. -/
theorem arithCode_toNat_ofInt_16 {res : Resolution} {code : Int} (hbits : bits res ≤ 16) (hmin : minCode res < code)
    (hmax : code < maxCode res) : arithCode (bits res) (BitVec.ofInt 16 code).toNat = code := by
  rw [arithCode_eq_ite, BitVec.toNat_ofInt]
  cases res <;> simp only [bits, minCode, maxCode] at hbits hmin hmax ⊢ <;> omega

/-- The buffer in which a device reports a code: layout W3 at 18 bits, layout W2 below. -/
def codeBuffer (res : Resolution) (gain : Gain) (code : Int) : ReadBuffer :=
  if res = .r18 then layoutW3 (BitVec.ofInt 24 code) ⟨true, .ch1, .oneShot, res, gain⟩
  else layoutW2 (BitVec.ofInt 16 code) ⟨true, .ch1, .oneShot, res, gain⟩ 0#8

theorem configByte_codeBuffer (res : Resolution) (gain : Gain) (code : Int) :
    configByte (codeBuffer res gain code) = packConfig ⟨true, .ch1, .oneShot, res, gain⟩ := by
  unfold codeBuffer
  split
  case isTrue h => exact configByte_layoutW3 _ h
  case isFalse => exact configByte_layoutW2 _ _ (by decide)

theorem sampleCode_codeBuffer {res : Resolution} (gain : Gain) {code : Int} (hmin : minCode res < code)
    (hmax : code < maxCode res) : sampleCode (codeBuffer res gain code) res = code := by
  rw [sampleCode_eq_arithCode, codeBuffer]
  split
  case isTrue h =>
    subst h
    rw [rawCode_layoutW3, arithCode_toNat_ofInt_24 hmin hmax]
  case isFalse h =>
    rw [rawCode_layoutW2 _ _ _ h, arithCode_toNat_ofInt_16 (bits_le_16_iff.2 h) hmin hmax]

/-- Settles O21: a voltage given is the scale of a valid code, and a valid code is that of its own buffer. -/
theorem attainableVoltages : Obligations.AttainableVoltages := by
  unfold Obligations.AttainableVoltages
  intro res gain q
  constructor
  · rintro ⟨buf, rfl, rfl, hexec⟩
    have hdec : smpDec buf = .ok ⟨q⟩ := next_smpOut_eq_iff.1 ((exec_decodeBuffer buf State.reset).symm.trans (hexec _))
    obtain ⟨-, hvalid, hq⟩ := smpDec_eq_ok_iff.1 hdec
    obtain ⟨hmin, hmax⟩ := codeValid_eq_true_iff.1 hvalid
    rw [scale_eq, Voltage.mk.injEq] at hq
    exact ⟨_, hmin, hmax, hq⟩
  · rintro ⟨code, hmin, hmax, rfl⟩
    have hcfg : unpackConfig (configByte (codeBuffer res gain code)) = ⟨true, .ch1, .oneShot, res, gain⟩ := by
      rw [configByte_codeBuffer, unpackConfig_packConfig]
    refine ⟨codeBuffer res gain code, by rw [hcfg], by rw [hcfg], fun s => ?_⟩
    rw [exec_decodeBuffer, next_smpOut_eq_iff, smpDec_eq_ok_iff, hcfg, sampleCode_codeBuffer gain hmin hmax, scale_eq]
    exact ⟨rfl, codeValid_eq_true_iff.2 ⟨hmin, hmax⟩, rfl⟩

end Sys2Proof.Machine
end

section
/-! PROOFS. The five forms of `SMP.DEC`: the closed forms, the bits that change no result, and the bits above the sign
bit (41_sample_decoder.md, R130, R131, R134, R135, R137). -/

namespace Sys2Proof.Machine

section forms

variable (s : State) (r : Bool) (c : Channel) (m : SampleMode) (g : Gain)

/-- R130. -/
theorem exec_smpDecW3_eq_closedForm (d : BitVec 24) : exec (.smpDecW3 d r c m g) s =
    .next { s with smpOut := some (closedForm 3 g.code.toNat d.toNat r) } := by
  rw [exec_smpDecW3, smpDec_layoutW3 d rfl]

variable {t : Byte} (ht : tailWellFormed t = true)
include ht

/-- R131 at 12 bits. -/
theorem exec_smpDecW2R12_eq_closedForm (d : BitVec 16) : exec (.smpDecW2R12 d r c m g t) s =
    .next { s with smpOut := some (closedForm 0 g.code.toNat d.toNat r) } := by
  rw [exec_smpDecW2R12, smpDec_layoutW2 (cfg := ⟨r, c, m, .r12, g⟩) d ht nofun]
  rfl

/-- R131 at 14 bits. -/
theorem exec_smpDecW2R14_eq_closedForm (d : BitVec 16) : exec (.smpDecW2R14 d r c m g t) s =
    .next { s with smpOut := some (closedForm 1 g.code.toNat d.toNat r) } := by
  rw [exec_smpDecW2R14, smpDec_layoutW2 (cfg := ⟨r, c, m, .r14, g⟩) d ht nofun]
  rfl

/-- R131 at 16 bits. -/
theorem exec_smpDecW2R16_eq_closedForm (d : BitVec 16) : exec (.smpDecW2R16 d r c m g t) s =
    .next { s with smpOut := some (closedForm 2 g.code.toNat d.toNat r) } := by
  rw [exec_smpDecW2R16, smpDec_layoutW2 (cfg := ⟨r, c, m, .r16, g⟩) d ht nofun]
  rfl

/-- R135: the closed form at 18 bits of the two data bytes and the config byte. -/
theorem exec_smpDecW2R18_eq_closedForm (d : BitVec 16) : exec (.smpDecW2R18 d r c m g t) s =
    .next { s with smpOut := some (closedForm 3 g.code.toNat
      (d.toNat * 2 ^ 8 + (packConfig ⟨r, c, m, .r18, g⟩).toNat) r) } := by
  rw [exec_smpDecW2R18, smpDec_layoutW2_r18 d ht rfl]

end forms

/-- R130, R131: the codes out of range, by the bits of the raw value: the minimum with the sign bit set, and the maximum
or more with it clear. -/
theorem arithCode_reserved_iff (b raw : Nat) :
    (arithCode (b + 1) raw ≤ -(2 ^ b) ∨ arithCode (b + 1) raw ≥ 2 ^ b - 1) ↔
      (raw.testBit b = true ∧ raw % 2 ^ b = 0) ∨ (raw.testBit b = false ∧ raw ≥ 2 ^ b - 1) := by
  have hpos : 0 < 2 ^ b := Nat.two_pow_pos b
  have hmod : raw % 2 ^ b < 2 ^ b := Nat.mod_lt _ hpos
  have hcast : ((2 : Int) ^ b) = ((2 ^ b : Nat) : Int) := by push_cast; rfl
  cases hbit : raw.testBit b with
  | true =>
    rw [arithCode_of_testBit hbit, hcast]
    simp only [true_and, Bool.true_eq_false, false_and, or_false]
    omega
  | false =>
    rw [arithCode_of_not_testBit hbit, hcast]
    simp only [true_and, Bool.false_eq_true, false_and, false_or]
    omega

theorem toNat_code_le (g : Gain) : g.code.toNat ≤ 3 := Nat.le_of_lt_succ g.code.isLt

/-- Settles O13: the closed form, its reserved codes and its voltage, at 18 bits. -/
theorem formW3 : Obligations.FormW3 := by
  unfold Obligations.FormW3
  refine ⟨fun s d r c m g => exec_smpDecW3_eq_closedForm s r c m g d, fun d => arithCode_reserved_iff 17 d.toNat,
    fun d g v hv => ?voltage⟩
  case voltage =>
    have hg := toNat_code_le g
    simpa using mV_of_closedForm_eq_ok (s := 3) (by omega) hv

/-- Settles O14: the same at 12, 14 and 16 bits. -/
theorem formsW2 : Obligations.FormsW2 := by
  unfold Obligations.FormsW2
  refine ⟨fun s d r c m g t ht => ?closed, fun d k hk => ?reserved, fun d k g v hk hv => ?voltage⟩
  case closed =>
    exact ⟨exec_smpDecW2R12_eq_closedForm s r c m g ht d, exec_smpDecW2R14_eq_closedForm s r c m g ht d,
      exec_smpDecW2R16_eq_closedForm s r c m g ht d⟩
  case reserved =>
    have hbits : 12 + 2 * k = 11 + 2 * k + 1 := by omega
    rw [hbits]
    exact arithCode_reserved_iff (11 + 2 * k) d.toNat
  case voltage =>
    have hg := toNat_code_le g
    exact mV_of_closedForm_eq_ok (by omega) hv

/-- A ready sample whose sign bit is clear is an `IllegalValue` of its raw value once that reaches the maximum. -/
theorem closedForm_of_not_testBit {s g raw : Nat} (hbit : raw.testBit (11 + 2 * s) = false)
    (hraw : 2 ^ (11 + 2 * s) - 1 ≤ raw) : closedForm s g raw true =
      .raised (.illegalValue raw (-(2 ^ (11 + 2 * s))) (2 ^ (11 + 2 * s) - 1)) := by
  have hcode : arithCode (12 + 2 * s) raw = raw := by
    rw [show 12 + 2 * s = 11 + 2 * s + 1 by omega, arithCode_of_not_testBit hbit]
  have hcast : ((2 : Int) ^ (11 + 2 * s)) = ((2 ^ (11 + 2 * s) : Nat) : Int) := by push_cast; rfl
  refine closedForm_eq_illegalValue_iff.2 ⟨rfl, hcode.symm, rfl, rfl, .inr ?_⟩
  omega

/-- R135: of the corner form's raw values, whose byte 0 is a ready config byte of an `R18` sample, none is the reserved
minimum or maximum, so that the only illegal ones have bits above a clear sign bit. -/
theorem closedForm_corner {g raw : Nat} (hlow : raw % 2 ^ 8 < 0x80) (hres : raw / 4 % 4 = 3) :
    closedForm 3 g raw true =
      if raw.testBit 17 = false ∧ raw / 2 ^ 18 ≠ 0 then .raised (.illegalValue raw (-131072) 131071)
      else .ok ⟨arithCode 18 raw * 2 ^ (3 - g)⟩ := by
  have hbit : raw.testBit 17 = decide (raw / 2 ^ 17 % 2 = 1) := Nat.testBit_eq_decide_div_mod_eq
  split
  case isTrue h =>
    obtain ⟨hclear, habove⟩ := h
    exact closedForm_of_not_testBit hclear (by omega)
  case isFalse h =>
    refine closedForm_eq_ok_iff.2 ⟨rfl, ?_, ?_, rfl⟩
    all_goals
      rw [not_and_not_right, hbit, decide_eq_false_iff_not] at h
      rw [arithCode_eq_ite]
      omega

/-- Settles O15: the closed form of the corner's raw value, whose byte 0 is the config byte. -/
theorem formW2R18 : Obligations.FormW2R18 := by
  unfold Obligations.FormW2R18
  intro s d r c m g t ht cfgByte raw
  have hraw : d.toNat * 2 ^ 8 + (packConfig ⟨r, c, m, .r18, g⟩).toNat = raw := by
    rw [toNat_packConfig]
    rfl
  rw [exec_smpDecW2R18_eq_closedForm s r c m g ht, hraw, next_smpOut_eq_iff]
  cases r with
  | false => rfl
  | true =>
    have hc := c.code.isLt
    have hm := m.code.isLt
    have hg := g.code.isLt
    have hbyte : cfgByte = 0x20 * c.code.toNat + 0x10 * m.code.toNat + 0x0C + g.code.toNat := by simp [cfgByte]
    exact closedForm_corner (by omega) (by omega)

/-- Settles O23: the closed forms do not mention the channel, the mode or the tail; the corner form's does not mention
the tail. -/
theorem ignoredBits : Obligations.IgnoredBits := by
  unfold Obligations.IgnoredBits
  refine fun s r g c c' m m' => ⟨fun d => ?w3, fun d t t' ht ht' => ⟨?w2r12, ?w2r14, ?w2r16, ?w2r18⟩⟩
  case w3 => rw [exec_smpDecW3_eq_closedForm, exec_smpDecW3_eq_closedForm]
  case w2r12 => rw [exec_smpDecW2R12_eq_closedForm _ _ _ _ _ ht, exec_smpDecW2R12_eq_closedForm _ _ _ _ _ ht']
  case w2r14 => rw [exec_smpDecW2R14_eq_closedForm _ _ _ _ _ ht, exec_smpDecW2R14_eq_closedForm _ _ _ _ _ ht']
  case w2r16 => rw [exec_smpDecW2R16_eq_closedForm _ _ _ _ _ ht, exec_smpDecW2R16_eq_closedForm _ _ _ _ _ ht']
  case w2r18 => rw [exec_smpDecW2R18_eq_closedForm _ _ _ _ _ ht, exec_smpDecW2R18_eq_closedForm _ _ _ _ _ ht']

/-! The bits above the sign bit (R137), for data of any width. -/

section aboveSign

variable {w b : Nat}

/-- With the sign bit set the code is that of the bits below it. -/
theorem arithCode_congr_of_getLsbD {d d' : BitVec w} (hd : d.getLsbD b = true) (hd' : d'.getLsbD b = true)
    (h : d.extractLsb' 0 b = d'.extractLsb' 0 b) : arithCode (b + 1) d.toNat = arithCode (b + 1) d'.toNat := by
  have hlow : d.toNat % 2 ^ b = d'.toNat % 2 ^ b := by
    simpa [BitVec.extractLsb'_toNat] using congrArg BitVec.toNat h
  rw [arithCode_of_testBit hd, arithCode_of_testBit hd', hlow]

/-- A bit set above the sign bit makes the raw value exceed the maximum. -/
theorem le_toNat_of_extractLsb'_ne_zero {d : BitVec w} {n : Nat} (h : d.extractLsb' (b + 1) n ≠ 0#n) :
    2 ^ b - 1 ≤ d.toNat := by
  by_contra hlt
  have hsmall : d.toNat < 2 ^ (b + 1) := by
    rw [Nat.pow_succ]
    omega
  refine h (BitVec.eq_of_toNat_eq ?_)
  rw [BitVec.extractLsb'_toNat, Nat.shiftRight_eq_div_pow, Nat.div_eq_of_lt hsmall]
  simp

end aboveSign

/-- Settles O24: with the sign bit set the closed forms of one code; with it clear the raw value reaches the maximum. -/
theorem bitsAboveSign : Obligations.BitsAboveSign := by
  unfold Obligations.BitsAboveSign
  refine fun s r c m g => ⟨fun d d' hd hd' h => ?set18, fun d hd h => ?clear18, fun t ht =>
    ⟨fun d d' hd hd' h => ?set12, fun d hd h => ?clear12, fun d d' hd hd' h => ?set14, fun d hd h => ?clear14⟩⟩
  case set18 =>
    rw [exec_smpDecW3_eq_closedForm, exec_smpDecW3_eq_closedForm,
      closedForm_congr (s := 3) (arithCode_congr_of_getLsbD hd hd' h)]
  case clear18 =>
    rw [exec_smpDecW3_eq_closedForm, closedForm_of_not_testBit (s := 3) hd (le_toNat_of_extractLsb'_ne_zero h)]
    rfl
  case set12 =>
    rw [exec_smpDecW2R12_eq_closedForm _ _ _ _ _ ht, exec_smpDecW2R12_eq_closedForm _ _ _ _ _ ht,
      closedForm_congr (s := 0) (arithCode_congr_of_getLsbD hd hd' h)]
  case clear12 =>
    rw [exec_smpDecW2R12_eq_closedForm _ _ _ _ _ ht,
      closedForm_of_not_testBit (s := 0) hd (le_toNat_of_extractLsb'_ne_zero h)]
    rfl
  case set14 =>
    rw [exec_smpDecW2R14_eq_closedForm _ _ _ _ _ ht, exec_smpDecW2R14_eq_closedForm _ _ _ _ _ ht,
      closedForm_congr (s := 1) (arithCode_congr_of_getLsbD hd hd' h)]
  case clear14 =>
    rw [exec_smpDecW2R14_eq_closedForm _ _ _ _ _ ht,
      closedForm_of_not_testBit (s := 1) hd (le_toNat_of_extractLsb'_ne_zero h)]
    rfl

end Sys2Proof.Machine
end

section
/-! PROOFS. What the invariant's clauses rest on: the decoder's results are legal, a protocol's sequence decodes first,
and the pairs of a mode have its bit (10_state.md, R35, R39; 42_host_protocols.md, R164 to R173). -/

namespace Sys2Proof.Machine

/-! ## What the decoder gives is legal -/

/-- R35: a valid code's voltage is below 2048 mV in magnitude. -/
theorem scale_inRange {res : Resolution} {code : Int} (hmin : minCode res < code) (hmax : code < maxCode res)
    (gain : Gain) : (scale code res gain).inRange := by
  unfold Voltage.inRange
  cases res <;> cases gain <;> simp only [scale, bits, gainExp, minCode, maxCode] at hmin hmax ⊢ <;> omega

/-- R35, R202: every result of `SMP.DEC` is legal. -/
theorem smpDec_legal (buf : ReadBuffer) : (smpDec buf).legal := by
  unfold smpDec
  simp only
  split
  case isTrue => exact trivial
  case isFalse =>
    split
    case isTrue hvalid =>
      obtain ⟨hmin, hmax⟩ := codeValid_eq_true_iff.1 hvalid
      exact scale_inRange hmin hmax _
    case isFalse hvalid =>
      rw [codeValid_eq_true_iff] at hvalid
      exact ⟨⟨_, rfl, rfl⟩, by omega, sampleCode_mem_range buf _⟩

/-! ## The shapes of the protocols' sequences -/

theorem decodesFirst_cons_iff {m : Micro} {rest : List Micro} : decodesFirst (m :: rest) = true ↔
    m = .drive .smp ∨ m ≠ .book .collect ∧ m ≠ .book .returnSample ∧ decodesFirst rest = true := by
  cases m with
  | drive d => cases d <;> simp [decodesFirst]
  | act a => simp [decodesFirst]
  | book b => cases b <;> simp [decodesFirst]

/-- A beginning of a sequence decodes first if the sequence does. -/
theorem decodesFirst_of_prefix {xs ys : List Micro} (h : xs <+: ys) (hy : decodesFirst ys = true) :
    decodesFirst xs = true := by
  obtain ⟨zs, rfl⟩ := h
  induction xs with
  | nil => rfl
  | cons x xs ih =>
    rw [List.cons_append, decodesFirst_cons_iff] at hy
    exact decodesFirst_cons_iff.2 (hy.imp_right fun ⟨hc, hr, hrest⟩ => ⟨hc, hr, ih hrest⟩)

/-- R166: every measurement decodes a sample before it gives one out. -/
theorem decodesFirst_measureSequence (m : ModeState) : decodesFirst (measureSequence m) = true := by
  cases m with
  | oneShot p => rfl
  | continuous p init => cases init <;> rfl
  | multiShot ps => cases ps <;> rfl

/-! R172: what is done of a call, by whether a suspension point comes next. -/

section abandonAfter

variable {m : Micro} {rest : List Micro}

theorem abandonAfter_cons_of_not_suspension (k : Nat) (h : isSuspension m = false) :
    abandonAfter k (m :: rest) = m :: abandonAfter k rest :=
  if_neg (Bool.not_eq_true _ ▸ h)

theorem abandonAfter_zero_cons (h : isSuspension m = true) : abandonAfter 0 (m :: rest) = [] :=
  if_pos h

theorem abandonAfter_succ_cons (k : Nat) (h : isSuspension m = true) :
    abandonAfter (k + 1) (m :: rest) = m :: abandonAfter k rest :=
  if_pos h

end abandonAfter

/-- R172: an abandoned call does a beginning of the whole call. -/
theorem abandonAfter_prefix (k : Nat) (ms : List Micro) : abandonAfter k ms <+: ms := by
  induction ms generalizing k with
  | nil => exact List.prefix_refl []
  | cons m rest ih =>
    cases hs : isSuspension m with
    | false =>
      rw [abandonAfter_cons_of_not_suspension k hs]
      exact List.cons_prefix_cons.2 ⟨rfl, ih k⟩
    | true =>
      cases k with
      | zero =>
        rw [abandonAfter_zero_cons hs]
        exact List.nil_prefix
      | succ k =>
        rw [abandonAfter_succ_cons k hs]
        exact List.cons_prefix_cons.2 ⟨rfl, ih k⟩

/-! ## The pairs of a mode have its `sample_mode` (R164) -/

theorem sampleMode_of_shotOf {m : SampleMode} {st : Setup} {p : Shot} (h : shotOf m st = some p) :
    p.cfg.sampleMode = m := by
  unfold shotOf at h
  split at h
  · cases h; rfl
  · cases h

theorem sampleMode_of_shotsOf {sts : List Setup} {ps : List Shot} (h : shotsOf sts = some ps) :
    ∀ p ∈ ps, p.cfg.sampleMode = .oneShot := by
  intro p hp
  have hmem : some p ∈ sts.map (shotOf .oneShot) := shotsOf_eq_some_iff.1 h ▸ List.mem_map_of_mem hp
  obtain ⟨st, -, hst⟩ := List.mem_map.1 hmem
  exact sampleMode_of_shotOf hst

/-- As many pairs as Configurations: none only of none. -/
theorem ne_nil_of_shotsOf {sts : List Setup} {ps : List Shot} (h : shotsOf sts = some ps) (hne : sts ≠ []) :
    ps ≠ [] := by
  have hlen := length_of_shotsOf h
  rintro rfl
  exact hne (List.eq_nil_of_length_eq_zero hlen.symm)

theorem legal_of_modeOf {setup : ModeSetup} {m : ModeState} (hne : setup ≠ .multiShot []) (h : modeOf setup = some m) :
    m.legal := by
  cases setup with
  | oneShot st =>
    cases hp : shotOf .oneShot st <;> simp only [modeOf, hp, reduceCtorEq, Option.some.injEq] at h
    subst h
    exact sampleMode_of_shotOf hp
  | continuous st =>
    cases hp : shotOf .continuous st <;> simp only [modeOf, hp, reduceCtorEq, Option.some.injEq] at h
    subst h
    exact sampleMode_of_shotOf hp
  | multiShot sts =>
    cases hps : shotsOf sts <;> simp only [modeOf, hps, reduceCtorEq, Option.some.injEq] at h
    subst h
    exact ⟨ne_nil_of_shotsOf hps (by simpa using hne), sampleMode_of_shotsOf hps⟩

theorem legal_setRunning {m : ModeState} (h : m.legal) : (setRunning m).legal := by
  cases m <;> exact h

theorem legal_withShot {f : Shot → Shot} {m : ModeState} (h : m.legal)
    (hf : ∀ p, p.cfg.sampleMode = .continuous → (f p).cfg.sampleMode = .continuous) : (withShot f m).legal := by
  cases m with
  | continuous p init => exact hf p h
  | oneShot p => exact h
  | multiShot ps => exact h

end Sys2Proof.Machine
end

section
/-! PROOFS. The invariant under the shared updates of the state (10_state.md R50, 20_memory.md R54). -/

namespace Sys2Proof.Machine

/-- A canonical buffer that is unwritten or whole is whole when filled. -/
theorem Memory.length_fill {m : Memory} (hwf : m.wf = true) (hwhole : m = [] ∨ m.length = 4) (buf : ReadBuffer) :
    (m.fill buf).length = 4 := by
  obtain rfl | hlen := hwhole
  · rfl
  · have hle : (m.fill buf).length ≤ 4 := Memory.length_of_risingFrom (Memory.wf_fill buf hwf)
    have hge : m.length ≤ (m.fill buf).length :=
      Memory.length_write.trans (Memory.length_write.trans (Memory.length_write.trans Memory.length_write))
    omega

namespace State.Inv

variable {s : State}

/-- The invariant speaks of eight fields of the state only. -/
theorem frame (h : s.Inv) (e : Option Byte) (d : Option RegisterConfig) (p : List Op) (k : Sink)
    (tr : List BusEvent) (ws : List WriteReply) (rs : List ReadReply) (n : Nat) :
    State.Inv { s with
      encOut := e, decOut := d, program := p, sink := k, trace := tr, writeReplies := ws, readReplies := rs
      draws := n } :=
  ⟨h.bufCanonical, h.bufWhole, h.smpLegal, h.collectedInRange, h.resultsLegal, h.modeLegal, h.taskLegal, h.sampleThere⟩

theorem fill (h : s.Inv) (buf : ReadBuffer) : State.Inv { s with buf := s.buf.fill buf } :=
  { h with
    bufCanonical := Memory.wf_fill buf h.bufCanonical
    bufWhole := .inr (Memory.length_fill h.bufCanonical h.bufWhole buf) }

theorem withHandle (h : s.Inv) {hd : Handle} (hm : hd.mode.legal) : State.Inv { s with handle := some hd } :=
  { h with modeLegal := fun _ heq => Option.some.inj heq ▸ hm }

theorem withCollected (h : s.Inv) {vs : List Voltage} (hvs : ∀ v ∈ vs, v.inRange) :
    State.Inv { s with collected := vs } :=
  { h with collectedInRange := hvs }

/-- The call in progress is another one. -/
theorem withTask (h : s.Inv) {ms : List Micro}
    (hms : ∀ p, (Micro.book (.stageShot p) ∈ ms ∨ Micro.book (.storeShot p) ∈ ms) → p.cfg.sampleMode = .continuous)
    (hd : s.smpOut.isSome = true ∨ decodesFirst ms = true) : State.Inv { s with task := ms } :=
  { h with taskLegal := hms, sampleThere := hd }

/-- The call in progress has ended. -/
theorem withTask_nil (h : s.Inv) : State.Inv { s with task := [] } :=
  h.withTask (by simp) (.inr rfl)

theorem deliver (h : s.Inv) {r : CallResult} (hr : r.legal) : (Machine.deliver r s).Inv :=
  { h with resultsLegal := by simpa [or_imp, forall_and] using And.intro h.resultsLegal hr }

theorem failCall (h : s.Inv) {e : DriverError} (he : (CallResult.error e).legal) : (Machine.failCall e s).Inv :=
  (h.withTask_nil.withCollected (vs := []) (by simp)).deliver he

/-- R20: an instruction's output is all it writes, and unit SMP's is legal. -/
theorem withSmpOut (h : s.Inv) {r : SmpResult} (hr : r.legal) : State.Inv { s with smpOut := some r } :=
  { h with smpLegal := fun _ heq => Option.some.inj heq ▸ hr, sampleThere := .inl rfl }

theorem voltage_inRange (h : s.Inv) {v : Voltage} (hs : s.smpOut = some (.ok v)) : v.inRange :=
  h.smpLegal _ hs

theorem error_legal (h : s.Inv) {e : SmpError} (hs : s.smpOut = some (.raised e)) : e.legal :=
  h.smpLegal _ hs

theorem deliver_array (h : s.Inv) : (Machine.deliver (.array s.collected) s).Inv :=
  h.deliver (r := .array s.collected) h.collectedInRange

/-- The bus's answers, and what has been asked of it, are no part of the invariant. -/
theorem drawWrite (h : s.Inv) : (Machine.drawWrite s).2.Inv := by
  obtain ⟨ws, n, hd⟩ := drawWrite_frame s
  exact hd ▸ h.frame ..

theorem drawRead (h : s.Inv) : (Machine.drawRead s).2.Inv := by
  obtain ⟨rs, n, hd⟩ := drawRead_frame s
  exact hd ▸ h.frame ..

/-- Taking a request keeps the invariant, unless it is the decode that a protocol still relies on. -/
theorem advance (h : s.Inv) (hnext : s.smpOut.isSome = true ∨ ∀ rest, s.task ≠ .drive .smp :: rest) :
    (Machine.advance s).Inv := by
  unfold Machine.advance
  split
  case h_1 m rest htask =>
    refine h.withTask (fun p hp => h.taskLegal p ?sub) ?sample
    case sub =>
      rw [htask]
      exact hp.imp (List.mem_cons_of_mem m) (List.mem_cons_of_mem m)
    case sample =>
      obtain hsome | hd := h.sampleThere
      · exact .inl hsome
      · rw [htask, decodesFirst_cons_iff] at hd
        obtain rfl | ⟨-, -, hrest⟩ := hd
        · exact .inl (hnext.resolve_right fun hne => hne rest htask)
        · exact .inr hrest
  case h_2 => exact h.frame ..
  case h_3 => exact h

end State.Inv

end Sys2Proof.Machine
end

section
/-! PROOFS. Every step keeps the invariant, request by request (10_state.md, R35, R39, R50; 60_exceptions.md, R202). -/

namespace Sys2Proof.Machine

/-! ## What is fetched, and from where -/

theorem fetchDrive_eq_instr (d : Drive) (buf : Memory) : ∃ i, fetchDrive d buf = .instr i := by
  cases d <;> exact ⟨_, rfl⟩

/-- A piece of bookkeeping stands only in the call in progress. -/
theorem task_of_fetch_book {s : State} {b : Book} (h : fetch s = .book b) : ∃ rest, s.task = .book b :: rest := by
  unfold fetch at h
  split at h
  case h_3 htask =>
    cases h
    exact ⟨_, htask⟩
  case h_1 d _ _ =>
    obtain ⟨i, hi⟩ := fetchDrive_eq_instr d s.buf
    simp [hi] at h
  case h_4 d _ _ _ =>
    obtain ⟨i, hi⟩ := fetchDrive_eq_instr d s.buf
    simp [hi] at h
  all_goals cases h

/-- What is fetched from a drive of unit SMP is an instruction of unit SMP. -/
theorem task_ne_smp_of_fetch {s : State} (h : ∀ i, fetch s = .instr i → i.blockUnit ≠ .smp) (rest : List Micro) :
    s.task ≠ .drive .smp :: rest := fun htask =>
  h _ (fetch_task_smp htask) (encode_decodeBuffer s.buf.snapshot).2.1

/-- Unit SMP's output may be written before its request is taken as well as after. -/
theorem advance_withSmpOut (s : State) (r : Option SmpResult) :
    advance { s with smpOut := r } = { advance s with smpOut := r } := by
  obtain ⟨_, _, _, _, program, task, _⟩ := s
  cases task <;> cases program <;> rfl

/-! ## Every request keeps the invariant -/

section requests

variable {s t : State}

theorem inv_exec {i : Instr} (h : s.Inv) (hf : fetch s = .instr i) (ht : exec i (advance s) = .next t) : t.Inv := by
  have hadv : i.blockUnit ≠ .smp → (advance s).Inv := fun hne =>
    h.advance (.inr (task_ne_smp_of_fetch fun j hj => by
      rw [hf, Fetched.instr.injEq] at hj
      exact hj ▸ hne))
  obtain ⟨hu, b, he⟩ | ⟨hu, c, he⟩ | ⟨-, buf, he⟩ := exec_cases i (advance s) <;>
    rw [he, Host.Outcome.next.injEq] at ht <;> subst ht
  · exact (hadv (hu ▸ nofun)).frame ..
  · exact (hadv (hu ▸ nofun)).frame ..
  · rw [← advance_withSmpOut]
    exact (h.withSmpOut (smpDec_legal buf)).advance (.inl rfl)

theorem inv_runBusWrite {b : Byte} (h : s.Inv) (ht : runBusWrite b s = .next t) : t.Inv := by
  unfold runBusWrite at ht
  split at ht
  · cases ht
  · rename_i hd _
    have htr : State.Inv { s with trace := s.trace ++ [.write hd.address b] } := h.frame ..
    have hdraw := htr.drawWrite
    split at ht
    all_goals
      rename_i heq
      rw [heq] at hdraw
      cases ht
    · exact hdraw
    · exact hdraw.failCall trivial

theorem inv_runBusRead (h : s.Inv) (ht : runBusRead s = .next t) : t.Inv := by
  unfold runBusRead at ht
  split at ht
  · cases ht
  · rename_i hd _
    have htr : State.Inv { s with trace := s.trace ++ [.read hd.address] } := h.frame ..
    have hdraw := htr.drawRead
    split at ht
    all_goals
      rename_i heq
      rw [heq] at hdraw
      cases ht
    · exact hdraw.fill _
    · exact State.Inv.failCall (State.Inv.frame (hdraw.fill _) ..) trivial

theorem inv_runHand {bytes : List Byte} (h : s.Inv) (ht : runHand bytes s = .next t) : t.Inv := by
  unfold runHand at ht
  split at ht
  · cases ht
    exact h.fill _
  · cases ht

theorem inv_runAction {a : Action} (h : s.Inv) (ht : runAction a s = .next t) : t.Inv := by
  cases a with
  | hand bytes => exact inv_runHand h ht
  | busWrite b => exact inv_runBusWrite h ht
  | busRead => exact inv_runBusRead h ht
  | delay us =>
    cases ht
    exact h.frame ..

theorem inv_runMarkRunning (h : s.Inv) (ht : runMarkRunning s = .next t) : t.Inv := by
  unfold runMarkRunning at ht
  split at ht
  · cases ht
  · cases ht
    exact h.withHandle (legal_setRunning (h.modeLegal _ ‹_›))

theorem inv_runCollect (h : s.Inv) (ht : runCollect s = .next t) : t.Inv := by
  unfold runCollect at ht
  split at ht
  · cases ht
  · cases ht
    refine h.withCollected ?_
    simpa [or_imp, forall_and] using And.intro h.collectedInRange (h.voltage_inRange ‹_›)
  · cases ht
    exact h.failCall (h.error_legal ‹_›)

theorem inv_runReturnSample (h : s.Inv) (ht : runReturnSample s = .next t) : t.Inv := by
  unfold runReturnSample at ht
  split at ht
  · cases ht
  · cases ht
    exact h.deliver (h.voltage_inRange ‹_›)
  · cases ht
    exact h.failCall (h.error_legal ‹_›)

theorem inv_runReturnArray (h : s.Inv) (ht : runReturnArray s = .next t) : t.Inv := by
  cases ht
  exact h.deliver_array.withCollected (by simp)

theorem inv_runStageShot {p : Shot} (h : s.Inv) (hp : p.cfg.sampleMode = .continuous)
    (ht : runStageShot p s = .next t) : t.Inv := by
  unfold runStageShot at ht
  split at ht
  · cases ht
  · cases ht
    refine State.Inv.frame (h.withHandle (legal_withShot (h.modeLegal _ ‹_›) fun old hold => ?_)) ..
    split
    · exact hp
    · exact hold

theorem inv_runStoreShot {p : Shot} (h : s.Inv) (hp : p.cfg.sampleMode = .continuous)
    (ht : runStoreShot p s = .next t) : t.Inv := by
  unfold runStoreShot at ht
  split at ht
  · cases ht
  · cases ht
    exact (h.withHandle (legal_withShot (h.modeLegal _ ‹_›) fun _ _ => hp)).deliver trivial

/-- A piece of bookkeeping that may be done keeps the invariant. -/
theorem inv_runBook {b : Book} (h : s.Inv)
    (hb : ∀ p, b = .stageShot p ∨ b = .storeShot p → p.cfg.sampleMode = .continuous)
    (ht : runBook b s = .next t) : t.Inv := by
  cases b with
  | markRunning => exact inv_runMarkRunning h ht
  | collect => exact inv_runCollect h ht
  | returnSample => exact inv_runReturnSample h ht
  | returnArray => exact inv_runReturnArray h ht
  | stageShot p => exact inv_runStageShot h (hb p (.inl rfl)) ht
  | storeShot p => exact inv_runStoreShot h (hb p (.inr rfl)) ht

theorem inv_runNew {address : BusAddress} {setup : ModeSetup} (h : s.Inv) (ht : runNew address setup s = .next t) :
    t.Inv := by
  obtain ⟨-, hne, m, hm, rfl⟩ := runNew_next ht
  exact h.withHandle (legal_of_modeOf hne hm)

/-! A call begins a sequence, or the beginning of one that an abandonment leaves. -/

variable {cut : List Micro → List Micro} (hcut : ∀ ms, cut ms <+: ms)
include hcut

theorem inv_beginMeasure {sink : Sink} (h : s.Inv) (ht : beginMeasure sink cut s = .next t) : t.Inv := by
  unfold beginMeasure at ht
  split at ht
  · cases ht
  · rename_i hd _
    cases ht
    have hcfg : ∀ p, (Micro.book (.stageShot p) ∈ cut (measureSequence hd.mode) ∨
        Micro.book (.storeShot p) ∈ cut (measureSequence hd.mode)) → p.cfg.sampleMode = .continuous := by
      rintro p (hp | hp)
      · exact absurd ((hcut _).subset hp) (stageShot_not_mem_measureSequence hd.mode p).1
      · exact absurd ((hcut _).subset hp) (stageShot_not_mem_measureSequence hd.mode p).2
    have hdec := decodesFirst_of_prefix (hcut _) (decodesFirst_measureSequence hd.mode)
    exact State.Inv.frame ((h.withTask hcfg (.inr hdec)).withCollected (vs := []) (by simp)) ..

/-- A Continuous `configure` begins: the pair on its way has its mode's bit. -/
theorem inv_configureSequence {p : Shot} (h : s.Inv) (hp : p.cfg.sampleMode = .continuous) :
    State.Inv { s with task := cut (configureSequence p) } := by
  refine h.withTask (fun q hq => ?pair) (.inr (decodesFirst_of_prefix (hcut _) rfl))
  case pair =>
    have hq := hq.imp (fun hm => (hcut _).subset hm) (fun hm => (hcut _).subset hm)
    simp only [configureSequence, List.mem_cons, reduceCtorEq, Micro.book.injEq, Book.stageShot.injEq,
      Book.storeShot.injEq, List.not_mem_nil, or_false, false_or] at hq
    obtain rfl | rfl := hq
    · exact hp
    · exact hp

theorem inv_runConfigure {setup : ModeSetup} (h : s.Inv) (ht : runConfigure cut setup s = .next t) : t.Inv := by
  unfold runConfigure at ht
  split at ht
  · cases ht
  rename_i hd hhd
  split at ht
  · split at ht
    · cases ht
    · cases ht
      exact (h.withHandle (hd := ⟨hd.address, .oneShot _⟩) (sampleMode_of_shotOf ‹_›)).deliver trivial
  · split at ht
    · cases ht
    · cases ht
      exact inv_configureSequence hcut h (sampleMode_of_shotOf ‹_›)
  · rename_i ps sts hmode
    split at ht
    case isTrue hlen =>
      split at ht
      · cases ht
      · cases ht
        have hps := h.modeLegal hd hhd
        rw [hmode] at hps
        have hne : sts ≠ [] := by
          rintro rfl
          exact hps.1 (List.eq_nil_of_length_eq_zero hlen.symm)
        have hqs := ‹shotsOf sts = some _›
        exact (h.withHandle (hd := ⟨hd.address, .multiShot _⟩)
          ⟨ne_nil_of_shotsOf hqs hne, sampleMode_of_shotsOf hqs⟩).deliver trivial
    case isFalse => cases ht
  · cases ht

omit hcut in
theorem inv_runCall {c : Call} (h : s.Inv) (ht : runCall c s = .next t) : t.Inv := by
  cases c with
  | new address setup => exact inv_runNew h ht
  | configure setup => exact inv_runConfigure List.prefix_refl h ht
  | measure => exact inv_beginMeasure List.prefix_refl h ht
  | pull => exact inv_beginMeasure List.prefix_refl h ht
  | abandon sink k => exact inv_beginMeasure (abandonAfter_prefix k) h ht
  | abandonConfigure setup k => exact inv_runConfigure (abandonAfter_prefix k) h ht

end requests

/-- Settles O35: by what the step does, taking the request first: an instruction, an operation of the environment, a
piece of bookkeeping (whose pair was on its way), a call, or nothing. -/
theorem stepKeepsInvariant : Obligations.StepKeepsInvariant := by
  unfold Obligations.StepKeepsInvariant
  intro s t h hstep
  have hadv : (∀ i, fetch s ≠ .instr i) → (advance s).Inv := fun hne =>
    h.advance (.inr (task_ne_smp_of_fetch fun i hi => absurd hi (hne i)))
  obtain ⟨i, hf, ht⟩ | ⟨a, hf, ht⟩ | ⟨b, hf, ht⟩ | ⟨c, hf, ht⟩ | ⟨-, rfl⟩ := step_cases hstep
  · exact inv_exec h hf ht
  · exact inv_runAction (hadv (by simp [hf])) ht
  · obtain ⟨rest, htask⟩ := task_of_fetch_book hf
    refine inv_runBook (hadv (by simp [hf])) (fun p hp => h.taskLegal p ?_) ht
    rw [htask]
    exact hp.imp (fun hb => by simp [hb]) (fun hb => by simp [hb])
  · exact inv_runCall (hadv (by simp [hf])) ht
  · exact h

/-- Settles O34: at reset every list is empty and there is no output, no handle and nothing in progress. -/
theorem invariantAtReset : Obligations.InvariantAtReset := by
  unfold Obligations.InvariantAtReset
  exact
    { bufCanonical := rfl
      bufWhole := .inl rfl
      smpLegal := by simp [State.reset]
      collectedInRange := by simp [State.reset]
      resultsLegal := by simp [State.reset]
      modeLegal := by simp [State.reset]
      taskLegal := by simp [State.reset]
      sampleThere := .inr rfl }

end Sys2Proof.Machine
end

section
/-! PROOFS. No step faults, and no instruction stops the machine (60_exceptions.md, R217). -/

namespace Sys2Proof.Machine

section faults

variable {s : State} {f : Fault}

theorem runAction_ne_fault (a : Action) : runAction a s ≠ .fault f := by
  cases a with
  | hand bytes =>
    simp only [runAction, runHand]
    split <;> exact nofun
  | busWrite b =>
    simp only [runAction, runBusWrite]
    split
    · exact nofun
    · split <;> exact nofun
  | busRead =>
    simp only [runAction, runBusRead]
    split
    · exact nofun
    · split <;> exact nofun
  | delay us => exact nofun

/-- Log entry 25: only a piece of bookkeeping that finds no sample faults. -/
theorem runBook_eq_fault {b : Book} (h : runBook b s = .fault f) :
    (b = .collect ∨ b = .returnSample) ∧ s.smpOut = none := by
  cases b with
  | collect =>
    cases hs : s.smpOut with
    | none => exact ⟨.inl rfl, rfl⟩
    | some r => cases r <;> simp [runBook, runCollect, hs] at h
  | returnSample =>
    cases hs : s.smpOut with
    | none => exact ⟨.inr rfl, rfl⟩
    | some r => cases r <;> simp [runBook, runReturnSample, hs] at h
  | returnArray => cases h
  | markRunning => cases hh : s.handle <;> simp [runBook, runMarkRunning, hh] at h
  | stageShot p => cases hh : s.handle <;> simp [runBook, runStageShot, hh] at h
  | storeShot p => cases hh : s.handle <;> simp [runBook, runStoreShot, hh] at h

theorem runNew_ne_fault (address : BusAddress) (setup : ModeSetup) : runNew address setup s ≠ .fault f := by
  unfold runNew
  split
  · exact nofun
  · exact nofun
  · split <;> exact nofun

theorem beginMeasure_ne_fault (sink : Sink) (cut : List Micro → List Micro) : beginMeasure sink cut s ≠ .fault f := by
  unfold beginMeasure
  split <;> exact nofun

theorem runConfigure_ne_fault (cut : List Micro → List Micro) (setup : ModeSetup) :
    runConfigure cut setup s ≠ .fault f := by
  unfold runConfigure
  split
  · exact nofun
  · split
    · split <;> exact nofun
    · split <;> exact nofun
    · split
      · split <;> exact nofun
      · exact nofun
    · exact nofun

theorem runCall_ne_fault (c : Call) : runCall c s ≠ .fault f := by
  cases c with
  | new address setup => exact runNew_ne_fault address setup
  | configure setup => exact runConfigure_ne_fault id setup
  | measure => exact beginMeasure_ne_fault .caller id
  | pull => exact beginMeasure_ne_fault .stream id
  | abandon sink k => exact beginMeasure_ne_fault sink (abandonAfter k)
  | abandonConfigure setup k => exact runConfigure_ne_fault (abandonAfter k) setup

end faults

/-- R217: an instruction answers a next state. -/
theorem exec_eq_next (i : Instr) (s : State) : ∃ t, exec i s = .next t := by
  obtain ⟨t, ht, -⟩ := exec_results i s
  exact ⟨t, ht⟩

/-- Settles O31: a step could fault only in a piece of bookkeeping without a sample, and the invariant says there is
one. -/
theorem noStepFaults : Obligations.NoStepFaults := by
  unfold Obligations.NoStepFaults
  refine ⟨fun s f h hstep => ?step, fun i s => ?instr⟩
  case instr =>
    obtain ⟨t, ht⟩ := exec_eq_next i s
    exact ⟨fun f => ht ▸ nofun, fun r => ht ▸ nofun⟩
  case step =>
    unfold step at hstep
    split at hstep
    case h_1 i _ =>
      obtain ⟨t, ht⟩ := exec_eq_next i (advance s)
      rw [ht] at hstep
      cases hstep
    case h_2 a _ => exact runAction_ne_fault a hstep
    case h_3 b hf =>
      obtain ⟨hb, hnone⟩ := runBook_eq_fault hstep
      obtain ⟨rest, htask⟩ := task_of_fetch_book hf
      have hthere := h.sampleThere
      rw [advance_smpOut] at hnone
      rw [hnone, htask] at hthere
      obtain rfl | rfl := hb
      · simp [decodesFirst] at hthere
      · simp [decodesFirst] at hthere
    case h_4 c _ => exact runCall_ne_fault c hstep
    case h_5 => cases hstep

end Sys2Proof.Machine
end

section
/-! PROOFS. The block as a whole: frame, determinism, independence of the units (10_state.md R20, 30_encoding.md
R81). -/

namespace Sys2Proof.Machine

/-- Everything an instruction does, in every state alike: one value, its operand's alone, at one output port. -/
theorem exec_uniform (i : Instr) :
    (i.blockUnit = .enc ∧ ∃ b, ∀ s, exec i s = .next { s with encOut := some b }) ∨
    (i.blockUnit = .dec ∧ ∃ c, ∀ s, exec i s = .next { s with decOut := some c }) ∨
    (i.blockUnit = .smp ∧ ∃ r, ∀ s, exec i s = .next { s with smpOut := some r }) := by
  cases i with
  | cfgEnc r c m res g => exact .inl ⟨rfl, _, fun s => exec_cfgEnc s r c m res g⟩
  | cfgDec b => exact .inr (.inl ⟨rfl, _, fun s => exec_cfgDec s b⟩)
  | smpDecW3 d r c m g => exact .inr (.inr ⟨rfl, _, fun s => exec_smpDecW3 s r c m g d⟩)
  | smpDecW2R12 d r c m g t => exact .inr (.inr ⟨rfl, _, fun s => exec_smpDecW2R12 s r c m g t d⟩)
  | smpDecW2R14 d r c m g t => exact .inr (.inr ⟨rfl, _, fun s => exec_smpDecW2R14 s r c m g t d⟩)
  | smpDecW2R16 d r c m g t => exact .inr (.inr ⟨rfl, _, fun s => exec_smpDecW2R16 s r c m g t d⟩)
  | smpDecW2R18 d r c m g t => exact .inr (.inr ⟨rfl, _, fun s => exec_smpDecW2R18 s r c m g t d⟩)

/-- Settles O25: by the port that the instruction writes. -/
theorem instructionFrame : Obligations.InstructionFrame := by
  unfold Obligations.InstructionFrame
  intro i s
  obtain ⟨hu, b, he⟩ | ⟨hu, c, he⟩ | ⟨hu, r, he⟩ := exec_uniform i
  all_goals
    refine ⟨_, he s, ?_⟩
    simp [hu]

/-- Settles O26: the value at the written port is the same in every state. -/
theorem outputsDependOnOperandsOnly : Obligations.OutputsDependOnOperandsOnly := by
  unfold Obligations.OutputsDependOnOperandsOnly
  intro i s s'
  obtain ⟨hu, b, he⟩ | ⟨hu, c, he⟩ | ⟨hu, r, he⟩ := exec_uniform i
  all_goals
    refine ⟨_, _, he s, he s', ?_, ?_, ?_⟩
    all_goals simp [hu]

/-- Settles O27: two different ports may be written in either order. -/
theorem unitsCommute : Obligations.UnitsCommute := by
  unfold Obligations.UnitsCommute
  intro i j s hne
  obtain ⟨hi, _, hei⟩ | ⟨hi, _, hei⟩ | ⟨hi, _, hei⟩ := exec_uniform i <;>
    obtain ⟨hj, _, hej⟩ | ⟨hj, _, hej⟩ | ⟨hj, _, hej⟩ := exec_uniform j
  case inl.inl | inr.inl.inr.inl | inr.inr.inr.inr => exact absurd (hi.trans hj.symm) hne
  all_goals exact ⟨_, _, _, hei s, hej _, hej s, hei _⟩

end Sys2Proof.Machine
end

section
/-! PROOFS. The step: what a request of the block, of a table word or of a caller's buffer does (30_encoding.md, R82;
20_memory.md, R50 to R54). -/

namespace Sys2Proof.Machine

theorem step_of_takes_smp_eq {s s' : State} (h : s.takes (.drive .smp) s') :
    step s = .next { s' with smpOut := some (smpDec s.buf.snapshot) } := by
  rw [step_of_takes_smp h, exec_decodeBuffer]

/-- Settles O28: a drive fetches the instruction its operand decodes to. -/
theorem stepRunsDecodedInstruction : Obligations.StepRunsDecodedInstruction := by
  unfold Obligations.StepRunsDecodedInstruction
  intro s s' d i h hi
  cases d with
  | enc cfg =>
    subst hi
    exact step_of_takes_enc h
  | dec b =>
    cases hi
    exact step_of_takes_dec h
  | smp =>
    cases hi
    exact step_of_takes_smp h

/-- The word's request is taken first. -/
theorem takes_cons (s : State) (m : Micro) : State.takes { s with task := m :: s.task } m s :=
  .inl ⟨s.task, rfl, rfl⟩

/-- Settles O29: an 8-bit word drives unit DEC, a 32-bit word unit SMP on its own bytes; a word of another length is
handed over as a buffer that is not 4 bytes long. -/
theorem fetchWordRuns : Obligations.FetchWordRuns := by
  unfold Obligations.FetchWordRuns
  refine ⟨fun s w i => ⟨fun hi => ?byte, fun hi => ?word⟩, fun s nbits w h8 h32 => ?other⟩
  case byte =>
    cases hi
    exact step_of_takes_dec (takes_cons s _)
  case word =>
    cases hi
    have hstep := step_of_takes_smp (takes_cons { s with buf := s.buf.fill (bufferOfWord w) } (.drive .smp))
    rwa [Memory.snapshot_fill] at hstep
  case other =>
    have hnone : decodeTableWord nbits w = none := by
      unfold decodeTableWord
      split
      · exact absurd rfl h8
      · exact absurd rfl h32
      · rfl
    have hput : s.withFetchWord nbits w =
        { s with task := .act (.hand (bytesOfWord (handedLength nbits) w)) :: s.task } := by
      unfold State.withFetchWord
      split
      · exact absurd rfl h8
      · exact absurd rfl h32
      · rfl
    have hlen : (bytesOfWord (handedLength nbits) w).length ≠ 4 := by
      rw [length_bytesOfWord]
      exact mt handedLength_eq_four_iff.1 h32
    rw [hput]
    exact ⟨hnone, _, hlen, (step_of_takes_act (takes_cons s _)).trans ((runHand_eq _ s).1 hlen)⟩

theorem getElem?_bytes_snapshot {m : Memory} {a : Nat} {b : Byte} (h : m.snapshot.bytes[a]? = some b) :
    b = m.byteAt a := by
  obtain ⟨ha, -⟩ := List.getElem?_eq_some_iff.1 h
  change a < 4 at ha
  interval_cases a <;> exact (Option.some.inj h).symm

/-- Settles O30: the operand is the buffer's snapshot. -/
theorem unwrittenBufferRuns : Obligations.UnwrittenBufferRuns := by
  unfold Obligations.UnwrittenBufferRuns
  refine fun s s' h => ⟨s.buf.snapshot, step_of_takes_smp_eq h, fun a b hb => ?_⟩
  rw [getElem?_bytes_snapshot hb]
  cases hread : s.buf.read a with
  | none => exact .inr ⟨rfl, Memory.byteAt_of_unwritten hread⟩
  | some v => exact .inl (congrArg some (Memory.byteAt_of_read hread).symm)

/-- A filled buffer holds the bytes at their indices. -/
theorem Memory.read_fill_of_lt (m : Memory) (buf : ReadBuffer) {a : Nat} (ha : a < 4) :
    (m.fill buf).read a = buf.bytes[a]? := by
  rw [Memory.read_fill]
  interval_cases a <;> rfl

theorem Memory.read_fill_of_le (m : Memory) (buf : ReadBuffer) {a : Nat} (ha : 4 ≤ a) :
    (m.fill buf).read a = m.read a := by
  rw [Memory.read_fill, if_neg (by omega), if_neg (by omega), if_neg (by omega), if_neg (by omega)]

/-- Settles O32: a buffer of the port's length fills the operand. -/
theorem handedBuffer : Obligations.HandedBuffer := by
  unfold Obligations.HandedBuffer
  refine fun s s' bytes h => ⟨fun hlen => ?other, fun hlen => ?four⟩
  case other => exact (step_of_takes_act h).trans ((runHand_eq bytes s').1 hlen)
  case four =>
    obtain ⟨b0, b1, b2, b3, rfl⟩ := List.length_eq_four.1 hlen
    have hbuf : s'.buf = s.buf := (congrArg State.buf (takes_frame h) :)
    have hrun := (step_of_takes_act h).trans ((runHand_eq _ s').2 ⟨b0, b1, b2, b3⟩ rfl)
    rw [hbuf] at hrun
    exact ⟨_, hrun, fun a ha => Memory.read_fill_of_lt s.buf _ ha, fun a ha => Memory.read_fill_of_le s.buf _ ha, rfl⟩

/-- Settles O33: the fields of the reset state, and a step that finds nothing asked. -/
theorem nothingDrivenNothingChanges : Obligations.NothingDrivenNothingChanges := by
  unfold Obligations.NothingDrivenNothingChanges
  refine ⟨rfl, rfl, rfl, rfl, rfl, fun s ht hp => ?idle⟩
  case idle => simp [step, fetch, ht, hp]

end Sys2Proof.Machine
end

section
/-! PROOFS. `new` and `configure`: from Configurations to stored pairs, and the requests that are refused
(42_host_protocols.md, R163 to R170). -/

namespace Sys2Proof.Machine

/-! ## A Configuration's pair -/

theorem shotOf_of_delayOf {c : Configuration} {d : Micros} (m : SampleMode) (r : Bool) (h : delayOf c = some d) :
    shotOf m ⟨c, r⟩ = some ⟨⟨r, c.channel, m, c.resolution, c.gain⟩, d⟩ := by
  simp only [shotOf, h, registerConfigOf]

theorem shotOf_eq_none {m : SampleMode} {st : Setup} (h : delayOf st.configuration = none) : shotOf m st = none := by
  simp only [shotOf, h]

/-- A pair without a delay leaves MultiShot without pairs. -/
theorem shotsOf_eq_none {sts : List Setup} {st : Setup} (hst : st ∈ sts) (h : delayOf st.configuration = none) :
    shotsOf sts = none := by
  cases hps : shotsOf sts with
  | none => rfl
  | some ps =>
    have hmem : shotOf .oneShot st ∈ ps.map some := shotsOf_eq_some_iff.1 hps ▸ List.mem_map_of_mem hst
    simp [shotOf_eq_none h] at hmem

/-- U10: no mode has a delay that does not fit. -/
theorem modeOf_eq_none {setup : ModeSetup} (h : setup.overflows) : modeOf setup = none := by
  cases setup with
  | oneShot st => simp only [modeOf, shotOf_eq_none h]
  | continuous st => simp only [modeOf, shotOf_eq_none h]
  | multiShot sts =>
    obtain ⟨st, hst, hd⟩ := h
    simp only [modeOf, shotsOf_eq_none hst hd]

theorem delayOf_offset_eq_none (ch : Channel) {res : Resolution} (g : Gain) {d : Int}
    (h : 2 ^ 32 ≤ (Config.nominalConversionTime res : Int) + d) : delayOf ⟨ch, res, g, .offset d⟩ = none := by
  have hlarge : ¬ ((Config.nominalConversionTime res : Int) + d).toNat < 2 ^ 32 := by omega
  exact if_neg hlarge

/-! ## `new` -/

section new

variable {s : State} {a : BusAddress} {setup : ModeSetup}

/-- R163, R164: without a handle, and with at least one pair to own, `new` makes one. -/
theorem runNew_of_modeOf {m : ModeState} (hh : s.handle = none) (hne : setup ≠ .multiShot [])
    (hm : modeOf setup = some m) :
    runNew a setup s = .next { s with handle := some ⟨a, m⟩ } := by
  unfold runNew
  split
  case h_1 heq => simp [hh] at heq
  case h_2 => exact absurd rfl hne
  case h_3 => simp only [hm]

/-- Log entry 12: unless a delay does not fit. -/
theorem runNew_delayOverflow (hh : s.handle = none) (hne : setup ≠ .multiShot []) (hm : modeOf setup = none) :
    runNew a setup s = .refused .delayOverflow := by
  unfold runNew
  split
  case h_1 heq => simp [hh] at heq
  case h_2 => exact absurd rfl hne
  case h_3 => simp only [hm]

theorem step_new {m : ModeState} {rest : List Op} (ht : s.task = []) (hp : s.program = .call (.new a setup) :: rest)
    (hh : s.handle = none) (hne : setup ≠ .multiShot []) (hm : modeOf setup = some m) :
    step s = .next { s with program := rest, sink := .caller, handle := some ⟨a, m⟩ } :=
  (step_call ht hp).trans (runNew_of_modeOf (by exact hh) hne hm)

end new

/-- Settles O36: a Configuration with a delay has its pair, and `new` stores the pairs of the mode. -/
theorem configurationBecomesRegisterConfig : Obligations.ConfigurationBecomesRegisterConfig := by
  unfold Obligations.ConfigurationBecomesRegisterConfig
  refine ⟨fun t => rfl, fun m c r d hd => shotOf_of_delayOf m r hd, fun s rest a ht hh =>
    ⟨fun c r d hd => ⟨fun hp => ?oneShot, fun hp => ?continuous⟩, fun setups shots hne hs hp => ?multiShot⟩⟩
  case oneShot => exact step_new ht hp hh nofun (by simp only [modeOf, shotOf_of_delayOf _ r hd])
  case continuous => exact step_new ht hp hh nofun (by simp only [modeOf, shotOf_of_delayOf _ r hd])
  case multiShot =>
    have hsome : shotsOf setups = some shots := shotsOf_eq_some_iff.2 hs
    refine step_new ht hp hh ?_ (by simp only [modeOf, hsome])
    rintro ⟨rfl⟩
    cases hsome
    exact hne rfl

/-! ## `configure` -/

section configure

variable {s : State} {h : Handle} {cut : List Micro → List Micro}

theorem step_configure {setup : ModeSetup} {rest : List Op} (ht : s.task = [])
    (hp : s.program = .call (.configure setup) :: rest) :
    step s = runConfigure id setup { s with program := rest, sink := .caller } :=
  step_call ht hp

theorem runConfigure_oneShot {st : Setup} {old p : Shot} (hh : s.handle = some h) (hm : h.mode = .oneShot old)
    (hp : shotOf .oneShot st = some p) :
    runConfigure cut (.oneShot st) s =
      .next { s with
        handle := some { h with mode := .oneShot p }, results := s.results ++ [⟨s.sink, .configured⟩] } := by
  simp only [runConfigure, hh, hm, hp, deliver]

theorem runConfigure_continuous {st : Setup} {old p : Shot} {init : Bool} (hh : s.handle = some h)
    (hm : h.mode = .continuous old init) (hp : shotOf .continuous st = some p) :
    runConfigure cut (.continuous st) s = .next { s with task := cut (configureSequence p) } := by
  simp only [runConfigure, hh, hm, hp]

theorem runConfigure_multiShot {sts : List Setup} {olds ps : List Shot} (hh : s.handle = some h)
    (hm : h.mode = .multiShot olds) (hlen : sts.length = olds.length) (hps : shotsOf sts = some ps) :
    runConfigure cut (.multiShot sts) s =
      .next { s with
        handle := some { h with mode := .multiShot ps }, results := s.results ++ [⟨s.sink, .configured⟩] } := by
  simp only [runConfigure, hh, hm, hlen, if_true, hps, deliver]

/-- Log entry 10: another count of pairs. -/
theorem runConfigure_shotCount {sts : List Setup} {olds : List Shot} (hh : s.handle = some h)
    (hm : h.mode = .multiShot olds) (hlen : sts.length ≠ olds.length) :
    runConfigure cut (.multiShot sts) s = .refused (.shotCount sts.length) := by
  simp only [runConfigure, hh, hm, hlen, if_false]

/-- Log entry 10: another mode's configuration. -/
theorem runConfigure_modeMismatch {setup : ModeSetup} (hh : s.handle = some h) (hm : h.mode.sameMode setup = false) :
    runConfigure cut setup s = .refused .modeMismatch := by
  obtain ⟨address, mode⟩ := h
  simp only [runConfigure, hh]
  cases mode with
  | oneShot p =>
    cases setup with
    | oneShot st => cases hm
    | continuous st => rfl
    | multiShot sts => rfl
  | continuous p init =>
    cases setup with
    | oneShot st => rfl
    | continuous st => cases hm
    | multiShot sts => rfl
  | multiShot ps =>
    cases setup with
    | oneShot st => rfl
    | continuous st => rfl
    | multiShot sts => cases hm

/-- Log entry 12: in every mode, of as many pairs as the handle holds. -/
theorem runConfigure_delayOverflow {setup : ModeSetup} (hh : s.handle = some h) (hm : h.mode.sameMode setup = true)
    (hc : h.mode.sameCount setup = true) (ho : setup.overflows) :
    runConfigure cut setup s = .refused .delayOverflow := by
  obtain ⟨address, mode⟩ := h
  cases setup with
  | oneShot st =>
    cases mode <;> simp only [ModeState.sameMode, Bool.false_eq_true] at hm
    simp only [runConfigure, hh, shotOf_eq_none ho]
  | continuous st =>
    cases mode <;> simp only [ModeState.sameMode, Bool.false_eq_true] at hm
    simp only [runConfigure, hh, shotOf_eq_none ho]
  | multiShot sts =>
    cases mode <;> simp only [ModeState.sameMode, Bool.false_eq_true] at hm
    obtain ⟨st, hst, hd⟩ := ho
    simp only [ModeState.sameCount, beq_iff_eq] at hc
    simp only [runConfigure, hh, hc, if_true, shotsOf_eq_none hst hd]

/-- R172: a `configure` of another mode than Continuous has no sequence that could be cut. -/
theorem runConfigure_congr_cut {cut' : List Micro → List Micro} (setup : ModeSetup) (hh : s.handle = some h)
    (hm : ∀ old init, h.mode ≠ .continuous old init) : runConfigure cut setup s = runConfigure cut' setup s := by
  obtain ⟨address, mode⟩ := h
  simp only [runConfigure, hh]
  cases mode with
  | continuous old init => exact absurd rfl (hm old init)
  | oneShot p => cases setup <;> rfl
  | multiShot ps => cases setup <;> rfl

end configure

/-- Settles O38: a sum past 32 bits is no delay, so neither `new` nor `configure` has a pair to store. -/
theorem delayOverflowRefused : Obligations.DelayOverflowRefused := by
  unfold Obligations.DelayOverflowRefused
  refine ⟨fun ch res g d hd => delayOf_offset_eq_none ch g hd, fun s rest setup ht ho =>
    ⟨fun a hh hp => ?new, fun h hh hm hc hp => ?configure⟩⟩
  case new =>
    have hne : setup ≠ .multiShot [] := by
      rintro rfl
      obtain ⟨st, hst, -⟩ := ho
      cases hst
    exact (step_call ht hp).trans (runNew_delayOverflow hh hne (modeOf_eq_none ho))
  case configure =>
    exact (step_configure ht hp).trans (runConfigure_delayOverflow (by exact hh) hm hc ho)

/-- Settles O48: the new pairs are those of the Configurations, and another count of them is refused. -/
theorem configureReplacesPairs : Obligations.ConfigureReplacesPairs := by
  unfold Obligations.ConfigureReplacesPairs
  refine fun s rest a ht => ⟨fun old c r d hp hh hd => ?oneShot, fun olds setups hp hh =>
    ⟨fun hlen => ?otherCount, fun news hlen hnews => ?multiShot⟩⟩
  case oneShot =>
    exact (step_configure ht hp).trans
      (runConfigure_oneShot (h := ⟨a, .oneShot old⟩) (by exact hh) rfl (shotOf_of_delayOf _ r hd))
  case otherCount =>
    exact (step_configure ht hp).trans (runConfigure_shotCount (by exact hh) rfl hlen)
  case multiShot =>
    have hshots := shotsOf_eq_some_iff.2 hnews
    exact (step_configure ht hp).trans
      (runConfigure_multiShot (h := ⟨a, .multiShot olds⟩) (by exact hh) rfl hlen hshots)

/-! ## Requests without a handle, and a second handle -/

section noHandle

variable {s : State}

theorem runBusWrite_noHandle (b : Byte) (hh : s.handle = none) : runBusWrite b s = .refused .noHandle := by
  simp only [runBusWrite, hh]

theorem runBusRead_noHandle (hh : s.handle = none) : runBusRead s = .refused .noHandle := by
  simp only [runBusRead, hh]

theorem beginMeasure_noHandle (sink : Sink) (cut : List Micro → List Micro) (hh : s.handle = none) :
    beginMeasure sink cut s = .refused .noHandle := by
  simp only [beginMeasure, hh]

theorem runConfigure_noHandle (cut : List Micro → List Micro) (setup : ModeSetup) (hh : s.handle = none) :
    runConfigure cut setup s = .refused .noHandle := by
  simp only [runConfigure, hh]

/-- Log entry 7: every call but `new` needs the handle. -/
theorem runCall_noHandle {call : Call} (hh : s.handle = none) (hne : ∀ a setup, call ≠ .new a setup) :
    runCall call s = .refused .noHandle := by
  cases call with
  | new a setup => exact absurd rfl (hne a setup)
  | configure setup => exact runConfigure_noHandle id setup hh
  | measure => exact beginMeasure_noHandle .caller id hh
  | pull => exact beginMeasure_noHandle .stream id hh
  | abandon sink k => exact beginMeasure_noHandle sink (abandonAfter k) hh
  | abandonConfigure setup k => exact runConfigure_noHandle (abandonAfter k) setup hh

/-- Log entry 8: a second handle. -/
theorem runNew_handleExists {h : Handle} (a : BusAddress) (setup : ModeSetup) (hh : s.handle = some h) :
    runNew a setup s = .refused .handleExists := by
  simp only [runNew, hh]

/-- Log entry 28: a MultiShot handle of no pairs. -/
theorem runNew_noShots (a : BusAddress) (hh : s.handle = none) : runNew a (.multiShot []) s = .refused .noShots := by
  simp only [runNew, hh]

end noHandle

/-- Settles O50: each request by what it is refused for. -/
theorem impossibleRequestsRefused : Obligations.ImpossibleRequestsRefused := by
  unfold Obligations.ImpossibleRequestsRefused
  refine ⟨fun s s' hh => ⟨fun b h => ?write, fun h => ?read⟩, fun s rest call ht hp =>
    ⟨fun hh hne => ?noHandle, fun h a setup hh hcall => ?second, fun a hh hcall => ?noShots,
      fun h setup k hh hcall hm => ?otherMode⟩⟩
  case write => exact (step_of_takes_act h).trans (runBusWrite_noHandle b ((handle_of_takes h).trans hh))
  case read => exact (step_of_takes_act h).trans (runBusRead_noHandle ((handle_of_takes h).trans hh))
  case noHandle => exact (step_call ht hp).trans (runCall_noHandle hh hne)
  case second =>
    subst hcall
    exact (step_call ht hp).trans (runNew_handleExists a setup hh)
  case noShots =>
    subst hcall
    exact (step_call ht hp).trans (runNew_noShots a hh)
  case otherMode =>
    obtain rfl | rfl := hcall
    · exact (step_call ht hp).trans (runConfigure_modeMismatch (by exact hh) hm)
    · exact (step_call ht hp).trans (runConfigure_modeMismatch (by exact hh) hm)

end Sys2Proof.Machine
end

section
/-! PROOFS. The bus and the timer when they succeed, and what a failed read leaves (42_host_protocols.md R161, R162,
20_memory.md R53). -/

namespace Sys2Proof.Machine

/-- Settles O46: a delay and an accepted write are recorded, a read fills the buffer, a failed read fills it with free
bytes. -/
theorem busAndTimer : Obligations.BusAndTimer := by
  unfold Obligations.BusAndTimer
  refine ⟨fun s s' us h => ?delay, fun s s' s'' h hh => ⟨fun b ht ha => ?write, fun b0 b1 b2 b3 ht ha => ?read,
    fun c ht ha => ?failedRead⟩⟩
  case delay =>
    rw [step_of_takes_act h, ← trace_of_takes h]
    rfl
  case write =>
    rw [step_of_takes_act ht, ← trace_of_takes ht]
    exact runBusWrite_of_answers b ((handle_of_takes ht).trans hh) ha
  case read =>
    have hbuf : s'.buf = s.buf := (congrArg State.buf (takes_frame ht) :)
    have hrun := (step_of_takes_act ht).trans (runBusRead_of_answers ((handle_of_takes ht).trans hh) ha)
    rw [hbuf, trace_of_takes ht] at hrun
    have hfill := fun a (ha : a < 4) => Memory.read_fill_of_lt s.buf ⟨b0, b1, b2, b3⟩ ha
    exact ⟨_, hrun, hfill 0 (by decide), hfill 1 (by decide), hfill 2 (by decide), hfill 3 (by decide),
      fun i hi => Memory.read_fill_of_le s.buf _ hi, rfl⟩
  case failedRead =>
    exact ⟨_, step_busRead_of_answers_failed hh ht ha, rfl, fun a ha => Memory.read_fill_of_lt _ _ ha⟩

end Sys2Proof.Machine
end

section
/-! PROOFS. Whole calls: OneShot and Continuous measurements and a Continuous `configure`, run to their ends
(42_host_protocols.md, R166 to R171). -/

namespace Sys2Proof.Machine

/-- Settles O41: both calls begin the mode's sequence, and the sequences are R86's expansions. -/
theorem pullIsOneMeasurement : Obligations.PullIsOneMeasurement := by
  unfold Obligations.PullIsOneMeasurement
  refine ⟨fun s rest h ht hh => ⟨fun hp => step_measure ht hp hh, fun hp => step_pull ht hp hh⟩, fun p => ?sequences⟩
  case sequences => exact ⟨rfl, rfl, rfl, rfl, fun ps => rfl⟩

section runs

variable {s : State} {rest : List Op} {a : BusAddress} {p : Shot} {ws : List WriteReply} {rs : List ReadReply}
  {b : ReadBuffer}

/-- R167: the call, one attempt, and the sample to the caller. -/
theorem steps_oneShot_measure (ht : s.task = []) (hp : s.program = .call .measure :: rest)
    (hh : s.handle = some ⟨a, .oneShot p⟩) (hw : s.writeReplies = .accepted :: ws)
    (hr : s.readReplies = .filled (b.b0, b.b1, b.b2, b.b3) :: rs) :
    steps 7 s = .next { s with
      program := rest, sink := .caller, task := [], collected := []
      encOut := some (packConfig (requestConfig p.cfg)), writeReplies := ws, readReplies := rs
      buf := s.buf.fill b, smpOut := some (smpDec b)
      trace := s.trace ++ [.write a (packConfig (requestConfig p.cfg)), .delay p.delay, .read a]
      results := s.results ++ [⟨.caller, callResult (smpDec b)⟩] } :=
  (steps_succ (step_measure ht hp hh)).trans <|
    (steps_attempt 1 (by exact hh) rfl (by exact hw) (by exact hr)).trans <|
      (steps_succ (step_returnSample rfl rfl rfl)).trans (steps_zero _)

/-- R168: the first measurement of Continuous starts the conversions and becomes Running. -/
theorem steps_continuous_first (ht : s.task = []) (hp : s.program = .call .measure :: rest)
    (hh : s.handle = some ⟨a, .continuous p false⟩) (hw : s.writeReplies = .accepted :: ws)
    (hr : s.readReplies = .filled (b.b0, b.b1, b.b2, b.b3) :: rs) :
    steps 8 s = .next { s with
      program := rest, sink := .caller, task := [], collected := []
      encOut := some (packConfig p.cfg), writeReplies := ws, readReplies := rs
      buf := s.buf.fill b, smpOut := some (smpDec b), handle := some ⟨a, .continuous p true⟩
      trace := s.trace ++ [.write a (packConfig p.cfg), .delay p.delay] ++ [.read a]
      results := s.results ++ [⟨.caller, callResult (smpDec b)⟩] } :=
  (steps_succ (step_measure ht hp hh)).trans <|
    (steps_startSequence 4 (by exact hh) rfl (by exact hw)).trans <|
      (steps_succ (step_markRunning rfl (by exact hh))).trans <|
        (steps_sampleSequence 1 rfl rfl (by exact hr)).trans <|
          (steps_succ (step_returnSample rfl rfl rfl)).trans (steps_zero _)

/-- R168, R169: a later one, once its sequence stands, only reads. -/
theorem steps_continuous_later {dest : Sink} (hh : s.handle = some ⟨a, .continuous p true⟩)
    (hr : s.readReplies = .filled (b.b0, b.b1, b.b2, b.b3) :: rs)
    (hstep : step s = .next { s with
      program := rest, sink := dest, task := measureSequence (.continuous p true), collected := [] }) :
    steps 4 s = .next { s with
      program := rest, sink := dest, task := [], collected := [], readReplies := rs
      buf := s.buf.fill b, smpOut := some (smpDec b), trace := s.trace ++ [.read a]
      results := s.results ++ [⟨dest, callResult (smpDec b)⟩] } :=
  (steps_succ hstep).trans <|
    (steps_sampleSequence 1 (by exact hh) rfl (by exact hr)).trans <|
      (steps_succ (step_returnSample rfl rfl rfl)).trans (steps_zero _)

end runs

/-- Settles O39: the run of the call, whose written byte asks for a conversion. -/
theorem oneShotMeasure : Obligations.OneShotMeasure := by
  unfold Obligations.OneShotMeasure
  intro s rest a p ws rs b0 b1 b2 b3 ht hp hh hw hr
  exact ⟨_, _, (core_run_eq 7 s).trans (steps_oneShot_measure (b := ⟨b0, b1, b2, b3⟩) ht hp hh hw hr), rfl,
    packConfig_requestConfig_bit7 p.cfg, rfl, rfl, rfl, rfl, rfl, rfl, rfl, rfl, rfl, rfl, rfl, rfl⟩

/-- Settles O40: the run of the call. -/
theorem continuousFirstMeasure : Obligations.ContinuousFirstMeasure := by
  unfold Obligations.ContinuousFirstMeasure
  intro s rest a p ws rs b0 b1 b2 b3 ht hp hh hw hr
  exact ⟨_, (core_run_eq 8 s).trans (steps_continuous_first (b := ⟨b0, b1, b2, b3⟩) ht hp hh hw hr),
    List.append_assoc .., rfl, rfl, rfl, rfl, rfl, rfl⟩

/-- Settles O42: the run of either call. -/
theorem continuousLaterMeasure : Obligations.ContinuousLaterMeasure := by
  unfold Obligations.ContinuousLaterMeasure
  intro s rest a p rs b0 b1 b2 b3 call dest hcall ht hp hh hr
  have hstep : step s = .next { s with
      program := rest, sink := dest, task := measureSequence (.continuous p true), collected := [] } := by
    obtain ⟨rfl, rfl⟩ | ⟨rfl, rfl⟩ := hcall
    · exact step_measure ht hp hh
    · exact step_pull ht hp hh
  exact ⟨_, (core_run_eq 4 s).trans (steps_continuous_later (b := ⟨b0, b1, b2, b3⟩) hh hr hstep),
    rfl, rfl, rfl, rfl, rfl, rfl, rfl, rfl⟩

end Sys2Proof.Machine
end

section
/-! PROOFS. MultiShot: the sub-conversions in order, collected or aborted (42_host_protocols.md, R170). -/

namespace Sys2Proof.Machine

/-- R170: what the bus and the timer are asked for in one sub-conversion. -/
def subConversionTrace (a : BusAddress) (p : Shot) : List BusEvent :=
  [.write a (packConfig (requestConfig p.cfg)), .delay p.delay, .read a]

/-- A bus read that succeeds with these bytes. -/
def filledReply (b : ReadBuffer) : ReadReply :=
  .filled (b.b0, b.b1, b.b2, b.b3)

section runs

variable {a : BusAddress} {ws : List WriteReply} {rs : List ReadReply}

/-- R170: one sub-conversion that succeeds is collected. -/
theorem steps_collect {s : State} {m : ModeState} {p : Shot} {b : ReadBuffer} {v : Voltage} {later : List Micro}
    (k : Nat) (hh : s.handle = some ⟨a, m⟩) (ht : s.task = attempt p ++ .book .collect :: later) (hb : smpDec b = .ok v)
    (hw : s.writeReplies = .accepted :: ws) (hr : s.readReplies = filledReply b :: rs) :
    steps (k + 6) s = steps k { s with
      task := later, collected := s.collected ++ [v], trace := s.trace ++ subConversionTrace a p
      writeReplies := ws, readReplies := rs
      encOut := some (packConfig (requestConfig p.cfg)), buf := s.buf.fill b, smpOut := some (.ok v) } := by
  refine (steps_attempt (k + 1) hh ht hw hr).trans ((steps_succ (step_collect_ok rfl (congrArg some hb))).trans ?_)
  rw [hb]
  rfl

/-- R170: `ps.length` sub-conversions that succeed, before the others that are `later`. -/
theorem steps_collectAll {m : ModeState} (later : List Shot) {ps : List Shot} {bufs : List ReadBuffer}
    {vs : List Voltage} (hlen : bufs.length = ps.length) (hbufs : bufs.map smpDec = vs.map .ok) {s : State}
    (hh : s.handle = some ⟨a, m⟩) (ht : s.task = multiSequence (ps ++ later))
    (hw : s.writeReplies = List.replicate ps.length .accepted ++ ws)
    (hr : s.readReplies = bufs.map filledReply ++ rs) :
    ∃ e buf r, ∀ k, steps (k + 6 * ps.length) s = steps k { s with
      task := multiSequence later, collected := s.collected ++ vs
      trace := s.trace ++ ps.flatMap (subConversionTrace a), writeReplies := ws, readReplies := rs
      encOut := e, buf := buf, smpOut := r } := by
  induction ps generalizing bufs vs s with
  | nil =>
    obtain rfl := List.eq_nil_of_length_eq_zero hlen
    obtain rfl : vs = [] := by simpa using hbufs
    simp only [List.nil_append, List.map_nil, List.length_nil, List.replicate_zero] at ht hw hr
    subst hw hr
    refine ⟨s.encOut, s.buf, s.smpOut, fun k => ?_⟩
    simp only [← ht, List.append_nil, List.flatMap_nil, List.length_nil, Nat.mul_zero, Nat.add_zero]
  | cons p ps ih =>
    obtain ⟨b, bufs, rfl⟩ := List.exists_cons_of_length_eq_add_one hlen
    obtain ⟨v, vs, rfl⟩ : ∃ v vs', vs = v :: vs' := by
      cases vs with
      | nil => simp at hbufs
      | cons v vs => exact ⟨v, vs, rfl⟩
    obtain ⟨hb, hbufs⟩ := List.cons.inj hbufs
    obtain ⟨e, buf, r, hrest⟩ := ih (Nat.succ.inj hlen) hbufs (s := { s with
      task := multiSequence (ps ++ later), collected := s.collected ++ [v], trace := s.trace ++ subConversionTrace a p
      writeReplies := List.replicate ps.length .accepted ++ ws, readReplies := bufs.map filledReply ++ rs
      encOut := some (packConfig (requestConfig p.cfg)), buf := s.buf.fill b, smpOut := some (.ok v) }) hh rfl rfl rfl
    refine ⟨e, buf, r, fun k => ?_⟩
    calc steps (k + 6 * (p :: ps).length) s
        = steps (k + 6 * ps.length + 6) s := by rw [List.length_cons, Nat.mul_succ, Nat.add_assoc]
      _ = _ := steps_collect _ hh ht hb hw hr
      _ = _ := hrest k
      _ = _ := by simp only [List.append_assoc, List.flatMap_cons, List.singleton_append]

/-- R170: the call, and its sub-conversions up to those that are `later`. -/
theorem steps_multiShot_measure {s : State} {rest : List Op} {ps : List Shot} (later : List Shot)
    {bufs : List ReadBuffer} {vs : List Voltage} (ht : s.task = []) (hp : s.program = .call .measure :: rest)
    (hh : s.handle = some ⟨a, .multiShot (ps ++ later)⟩) (hlen : bufs.length = ps.length)
    (hbufs : bufs.map smpDec = vs.map .ok) (hw : s.writeReplies = List.replicate ps.length .accepted ++ ws)
    (hr : s.readReplies = bufs.map filledReply ++ rs) :
    ∃ e buf r, ∀ k, steps (k + 6 * ps.length + 1) s = steps k { s with
      program := rest, sink := .caller, task := multiSequence later, collected := vs
      trace := s.trace ++ ps.flatMap (subConversionTrace a), writeReplies := ws, readReplies := rs
      encOut := e, buf := buf, smpOut := r } := by
  obtain ⟨e, buf, r, hrun⟩ := steps_collectAll (a := a) later hlen hbufs (s := { s with
    program := rest, sink := .caller, task := multiSequence (ps ++ later), collected := [] }) hh rfl hw hr
  exact ⟨e, buf, r, fun k => (steps_succ (step_measure ht hp hh)).trans (hrun k)⟩

end runs

/-- Settles O43: the call with all its sub-conversions, and the array to the caller. -/
theorem multiShotCollectsAll : Obligations.MultiShotCollectsAll := by
  unfold Obligations.MultiShotCollectsAll
  intro s rest a ps ws rs bufs vs ht hp hh hlen hbufs hw hr
  obtain ⟨e, buf, r, hrun⟩ := steps_multiShot_measure [] ht hp (by rw [hh, List.append_nil]) hlen hbufs hw hr
  have hcount : 6 * ps.length + 2 = 1 + 6 * ps.length + 1 := by omega
  have hend := (hrun 1).trans (steps_succ (step_returnArray rfl))
  rw [core_run_eq, hcount, hend]
  exact ⟨_, steps_zero _, rfl, rfl, rfl, rfl, rfl, rfl, rfl, rfl⟩

/-- Settles O44: the call with the sub-conversions that are `done`, the attempt that fails, and its error to the
caller. -/
theorem multiShotAbortsOnFirstError : Obligations.MultiShotAbortsOnFirstError := by
  unfold Obligations.MultiShotAbortsOnFirstError
  intro s rest a done p later ws rs bufs vs bad e ht hp hh hlen hbufs hbad hw hr
  have hw' : s.writeReplies = List.replicate done.length .accepted ++ .accepted :: ws := by
    rw [hw, List.replicate_succ', List.append_assoc, List.singleton_append]
  have hr' : s.readReplies = bufs.map filledReply ++ filledReply bad :: rs := by
    rw [hr, List.map_append, List.append_assoc]
    rfl
  obtain ⟨_, _, _, hrun⟩ := steps_multiShot_measure (p :: later) ht hp hh hlen hbufs hw' hr'
  have hcount : 6 * done.length + 7 = 6 + 6 * done.length + 1 := by omega
  have hend := (hrun 6).trans <| (steps_attempt 1 (by exact hh) rfl rfl rfl).trans <|
    steps_succ (step_collect_raised rfl (congrArg some hbad))
  rw [core_run_eq, hcount, hend]
  refine ⟨_, steps_zero _, rfl, ?trace, rfl, rfl, rfl, rfl, rfl, rfl⟩
  case trace =>
    rw [List.flatMap_append, ← List.append_assoc]
    rfl

end Sys2Proof.Machine
end

section
/-! PROOFS. A Continuous `configure`, and calls that are abandoned (42_host_protocols.md, R168, R172, R173). -/

namespace Sys2Proof.Machine

/-! ## `configure` of Continuous -/

section configure

variable {s : State} {h : Handle} {rest : List Micro} {ws : List WriteReply}

theorem step_busWrite_failed {b : Byte} {c : BusCause} (ht : s.task = .act (.busWrite b) :: rest)
    (hh : s.handle = some h) (hw : s.writeReplies = .failed c :: ws) :
    step s = .next { s with
      task := [], collected := [], writeReplies := ws, trace := s.trace ++ [.write h.address b]
      results := s.results ++ [⟨s.sink, .error (.busError c)⟩] } :=
  step_busWrite_of_answers_failed hh (.inl ⟨rest, ht, rfl⟩) (.inl ⟨ws, hw, rfl⟩)

/-- Log entry 9: what the handle holds at the bus write, the old pair or the new one. -/
def stagedShot (s : State) (old new : Shot) : Shot :=
  if Config.configureStoresFirst s.draws then new else old

/-- R168: a Continuous `configure` up to its bus write. -/
theorem steps_configure_to_write {a : BusAddress} {program : List Op} {st : Setup} {old new : Shot} {init : Bool}
    (k : Nat) (ht : s.task = []) (hp : s.program = .call (.configure (.continuous st)) :: program)
    (hh : s.handle = some ⟨a, .continuous old init⟩) (hs : shotOf .continuous st = some new) :
    steps (k + 3) s = steps k { s with
      program := program, sink := .caller, encOut := some (packConfig new.cfg), draws := s.draws + 1
      task := [.act (.busWrite (packConfig new.cfg)), .book (.storeShot new)]
      handle := some ⟨a, .continuous (stagedShot s old new) init⟩ } :=
by
  have hcall := (step_configure ht hp).trans
    (runConfigure_continuous (h := ⟨a, .continuous old init⟩) (by exact hh) rfl hs)
  exact (steps_succ hcall).trans <| (steps_succ (step_enc rfl)).trans <|
    steps_succ (step_stageShot (h := ⟨a, .continuous old init⟩) rfl (by exact hh))

end configure

/-- Settles O47: the call up to its bus write, which succeeds, so that the pair is stored, or fails. -/
theorem continuousConfigure : Obligations.ContinuousConfigure := by
  unfold Obligations.ContinuousConfigure
  intro s rest a old init c r d ws ht hp hh hd new
  have hwrite := fun k => steps_configure_to_write k ht hp hh (shotOf_of_delayOf .continuous r hd)
  refine ⟨fun hw => ?accepted, fun cause hw => ?failed⟩
  case accepted =>
    have hend := (hwrite 2).trans <| (steps_succ (step_busWrite_accepted rfl rfl (by exact hw))).trans <|
      steps_succ (step_storeShot rfl rfl)
    exact ⟨_, (core_run_eq 5 s).trans (hend.trans (steps_zero _)), rfl, rfl, rfl, rfl, rfl, rfl⟩
  case failed =>
    have hend := (hwrite 1).trans (steps_succ (step_busWrite_failed rfl rfl (by exact hw)))
    refine ⟨_, stagedShot s old new, (core_run_eq 4 s).trans (hend.trans (steps_zero _)), rfl, rfl, ?kept, rfl, rfl,
      rfl, rfl⟩
    case kept =>
      unfold stagedShot
      split
      · exact .inr rfl
      · exact .inl rfl

/-! ## Abandoned calls -/

section abandonAfter

variable {k : Nat} {ms : List Micro}

/-- R172: at most `k` suspension points are completed, and `k` of them when there are more. -/
theorem countP_abandonAfter (k : Nat) (ms : List Micro) :
    (abandonAfter k ms).countP isSuspension = min k (ms.countP isSuspension) := by
  induction ms generalizing k with
  | nil => rw [abandonAfter, List.countP_nil, Nat.min_zero]
  | cons m rest ih =>
    cases hs : isSuspension m with
    | false => simp [abandonAfter_cons_of_not_suspension k hs, hs, ih]
    | true =>
      cases k with
      | zero => simp [abandonAfter_zero_cons hs]
      | succ k => simp [abandonAfter_succ_cons k hs, hs, ih]

/-- A call let past all its suspension points is whole. -/
theorem abandonAfter_eq_self (h : ms.countP isSuspension ≤ k) : abandonAfter k ms = ms := by
  induction ms generalizing k with
  | nil => rfl
  | cons m rest ih =>
    cases hs : isSuspension m with
    | false =>
      rw [List.countP_cons_of_neg (by simp [hs])] at h
      rw [abandonAfter_cons_of_not_suspension k hs, ih h]
    | true =>
      rw [List.countP_cons_of_pos hs] at h
      obtain ⟨k, rfl⟩ := Nat.exists_eq_add_one_of_ne_zero (by omega : k ≠ 0)
      rw [abandonAfter_succ_cons k hs, ih (Nat.le_of_succ_le_succ h)]

end abandonAfter

/-- R170: what MultiShot does before it returns the array. -/
theorem multiSequence_eq_flatMap (ps : List Shot) :
    multiSequence ps = ps.flatMap (fun p => attempt p ++ [Micro.book .collect]) ++ [.book .returnArray] := by
  induction ps with
  | nil => rfl
  | cons p ps ih => simp [multiSequence, ih]

/-- R166, R170: a measurement gives its result out at its very end only. -/
theorem measureSequence_eq_append_last (m : ModeState) : ∃ before last, measureSequence m = before ++ [last] ∧
    Micro.book .returnSample ∉ before ∧ Micro.book .returnArray ∉ before := by
  cases m with
  | oneShot p => exact ⟨attempt p, _, rfl, by simp [attempt, startSequence, sampleSequence]⟩
  | continuous p init =>
    cases init with
    | false =>
      exact ⟨startSequence p.cfg p.delay ++ .book .markRunning :: sampleSequence, _, rfl,
        by simp [startSequence, sampleSequence]⟩
    | true => exact ⟨sampleSequence, _, rfl, by simp [sampleSequence]⟩
  | multiShot ps =>
    exact ⟨_, _, multiSequence_eq_flatMap ps, by simp [attempt, startSequence, sampleSequence]⟩

/-- R173: a measurement abandoned before its last suspension point gives out no result. -/
theorem result_not_mem_abandonAfter {k : Nat} {m : ModeState} (h : k < (measureSequence m).countP isSuspension) :
    Micro.book .returnSample ∉ abandonAfter k (measureSequence m) ∧
      Micro.book .returnArray ∉ abandonAfter k (measureSequence m) := by
  obtain ⟨before, last, heq, hsample, harray⟩ := measureSequence_eq_append_last m
  rw [heq] at h ⊢
  have hpre : abandonAfter k (before ++ [last]) <+: before := by
    refine (List.prefix_concat_iff.1 (abandonAfter_prefix k (before ++ [last]))).resolve_left fun hwhole => ?_
    have hcount := countP_abandonAfter k (before ++ [last])
    rw [hwhole] at hcount
    omega
  exact ⟨fun hm => hsample (hpre.subset hm), fun hm => harray (hpre.subset hm)⟩

/-- R173, R241: the flag is set after the second suspension point of a first Continuous measurement. -/
theorem markRunning_mem_iff (p : Shot) (k : Nat) :
    Micro.book .markRunning ∈ abandonAfter k (measureSequence (.continuous p false)) ↔ 2 ≤ k := by
  match k with
  | 0 => simp [measureSequence, startSequence, abandonAfter, isSuspension]
  | 1 => simp [measureSequence, startSequence, abandonAfter, isSuspension]
  | k + 2 => simp [measureSequence, startSequence, abandonAfter, isSuspension]

/-- R172: the one suspension point of a Continuous `configure` is its bus write. -/
theorem configure_mem_iff (p : Shot) (k : Nat) :
    (Micro.book (.storeShot p) ∈ abandonAfter k (configureSequence p) ↔ 1 ≤ k) ∧
      (Micro.act (.busWrite (packConfig p.cfg)) ∈ abandonAfter k (configureSequence p) ↔ 1 ≤ k) := by
  match k with
  | 0 => simp [configureSequence, abandonAfter, isSuspension]
  | k + 1 => simp [configureSequence, abandonAfter, isSuspension]

theorem beginMeasure_of_handle {s : State} {h : Handle} (sink : Sink) (cut : List Micro → List Micro)
    (hh : s.handle = some h) : beginMeasure sink cut s =
      .next { s with task := cut (measureSequence h.mode), sink := sink, collected := [] } := by
  simp only [beginMeasure, hh]

/-- Settles O49: an abandoned call is a beginning of the whole one, up to the suspension point it is abandoned at; a
call without suspension points is whole. -/
theorem abandonedCall : Obligations.AbandonedCall := by
  unfold Obligations.AbandonedCall
  refine ⟨fun k ms => ⟨abandonAfter_prefix k ms, ?atMost, abandonAfter_eq_self⟩,
    fun k m hk => ⟨?exactly, result_not_mem_abandonAfter hk⟩, fun p k => ?points,
    fun s rest h k ht hh =>
      ⟨fun dest hp => ?measure, fun st p old init hp hm hs => ?configure, fun setup hp hm => ?other⟩⟩
  case atMost =>
    rw [countP_abandonAfter]
    exact Nat.min_le_left ..
  case exactly =>
    rw [countP_abandonAfter]
    exact Nat.min_eq_left hk.le
  case points => exact ⟨markRunning_mem_iff p k, configure_mem_iff p k⟩
  case measure => exact (step_call ht hp).trans (beginMeasure_of_handle dest (abandonAfter k) (by exact hh))
  case configure => exact (step_call ht hp).trans (runConfigure_continuous (by exact hh) hm hs)
  case other =>
    rw [step_call ht hp, step_call (by exact ht) rfl]
    exact runConfigure_congr_cut setup (by exact hh) hm

end Sys2Proof.Machine
end
